-- ==== Sys2Proof/Word.lean ====
section
/-! DEFINITION. The words of the block: bytes, bus addresses, bus handle identifiers (00_scope.md R7, R9; 30_encoding.md R75).
The command word takes its width from `CMD_W`, so it stands in Config.lean. -/

namespace Sys2Proof

/-- A byte is 8 bits (R9). -/
abbrev Byte := BitVec 8

/-- A 7-bit two-wire bus address (20_memory.md R46, R95). -/
abbrev BusAddr := BitVec 7

/-- A bus handle, held as the 8-bit identifier that carries it in a command (R7, R75).
DESIGN CHOICE (log entry 5): the spec leaves the type `BusHandle` open (D7); the identifier itself is taken as the handle. -/
abbrev BusHandle := BitVec 8

end Sys2Proof
end

