-- ==== Sys2Proof/Config.lean ====
section
/-! DEFINITION. The fixed parameters of the block, each under its own name (00_scope.md R7, D27; 93_implementation_defined.md I8, I14).
`INIT_SEQ` is `Sys2Proof.Machine.initSeq` in Machine/InitClear.lean. -/

namespace Sys2Proof.Config

/-- `WIDTH`: 128 columns. -/
abbrev width : Nat := 128
/-- `HEIGHT`: 64 rows. -/
abbrev height : Nat := 64
/-- `PAGE_ROWS`: rows in a page. -/
abbrev pageRows : Nat := 8
/-- `PAGES` = HEIGHT / PAGE_ROWS. -/
abbrev pages : Nat := 8
/-- `FB_BYTES` = WIDTH × PAGES. -/
abbrev fbBytes : Nat := 1024
/-- `PANEL_ADDR`: the panel's 7-bit bus address. -/
abbrev panelAddr : BusAddr := 0x3C#7
/-- `CMD_PREFIX`: control byte of a command frame. -/
abbrev cmdPrefix : Byte := 0x00#8
/-- `DATA_PREFIX`: control byte of a data frame. -/
abbrev dataPrefix : Byte := 0x40#8
/-- `PAGE_CMD_BASE`: "set page address" is this plus the page. -/
abbrev pageCmdBase : Byte := 0xB0#8
/-- `COL_LO_CMD`: "set column address low nibble = 0". -/
abbrev colLoCmd : Byte := 0x00#8
/-- `COL_HI_CMD`: "set column address high nibble = 0". -/
abbrev colHiCmd : Byte := 0x10#8
/-- `GLYPH_ADVANCE`: pixels a text cursor moves for each character. -/
abbrev glyphAdvance : Nat := 6
/-- `COORD_W`: bits of each x, y, width, height and length operand (D3). -/
abbrev coordW : Nat := 8
/-- `CMD_W`: bits of a command word (D2). -/
abbrev cmdW : Nat := 40
/-- What a framebuffer byte that nothing has written holds: the reset value of every byte (10_state.md R32). -/
abbrev resetByte : Byte := 0x00#8

/-- `CLEAR_IN_COMPOSITION_UPDATES` (I8): whether the "clear" step inside SET_BORDER and DISPLAY_MESSAGE ends in its own full
update. The rules R130 and R139 take `true`, the default. -/
def clearInCompositionUpdates : Bool := true

end Sys2Proof.Config

namespace Sys2Proof

/-- A command word, `CMD_W` bits (00_scope.md R7, 30_encoding.md R73). -/
abbrev CommandWord := BitVec Config.cmdW

end Sys2Proof
end

