-- ==== Sys2Proof/Syntax.lean ====
section
/-! DEFINITION. The nine commands, one constructor per row of spec/opcode_table.json (30_encoding.md R75, R76). -/

namespace Sys2Proof

/-- A command with its operands (R75). Coordinates, sizes and text lengths are the exact unsigned numbers every rule computes
with (00_scope.md R10); that they fit their 8-bit fields is `Instr.wellFormed`. -/
inductive Instr where
  /-- INIT h (R101) -/
  | init (h : BusHandle)
  /-- CLEAR (R106) -/
  | clear
  /-- DRAW_PIXEL x, y, color (R113) -/
  | drawPixel (x y : Nat) (color : Byte)
  /-- DRAW_SQUARE x, y, width, height (R119) -/
  | drawSquare (x y width height : Nat)
  /-- DRAW_BORDER solid (R124) -/
  | drawBorder (solid : Bool)
  /-- SET_BORDER solid (R130) -/
  | setBorder (solid : Bool)
  /-- DRAW_STRING x, y, n: the text is carried as its length (R135) -/
  | drawString (x y n : Nat)
  /-- DISPLAY_MESSAGE n (R139) -/
  | displayMessage (n : Nat)
  /-- UPDATE (R146) -/
  | update
  deriving DecidableEq, Repr

end Sys2Proof
end

