-- ==== Sys2Proof/WellFormed.lean ====
section
/-! DEFINITION. Which command terms a command word can carry (30_encoding.md R74, R75): every coordinate, size and length is a
`COORD_W`-bit unsigned number. A bus handle, a color and the solid bit fit their fields by their types. -/

namespace Sys2Proof

/-- The value fits a `COORD_W`-bit unsigned operand field (R75: "`x`, `y`, `width` and `height` are 0..255"). -/
def fitsField (v : Nat) : Bool := decide (v < 2 ^ Config.coordW)

/-- Every operand fits its field. -/
def Instr.wellFormed : Instr → Bool
  | .init _ => true
  | .clear => true
  | .drawPixel x y _ => fitsField x && fitsField y
  | .drawSquare x y width height => fitsField x && fitsField y && fitsField width && fitsField height
  | .drawBorder _ => true
  | .setBorder _ => true
  | .drawString x y n => fitsField x && fitsField y && fitsField n
  | .displayMessage n => fitsField n
  | .update => true

/-- `Instr.wellFormed` as a proposition. -/
abbrev Instr.WellFormed (i : Instr) : Prop := i.wellFormed = true

end Sys2Proof
end

