-- ==== Sys2Proof/Decode.lean ====
section
/-! DEFINITION. The command word: fields, a total decoder that rejects by name, the encoder, and the opcode table's rows
(30_encoding.md R73–R80; spec/opcode_table.json). -/

namespace Sys2Proof

/-- Why a word names no command. Each is raised as IllegalCommand (60_exceptions.md R155). -/
inductive DecodeError where
  /-- `OP = 0x00` or `OP ≥ 0x0A` (R78) -/
  | unassignedOpcode (op : Byte)
  /-- a known `OP` with a non-zero reserved field or bit (R79) -/
  | reservedNonzero (op : Byte)
  /-- a byte sequence that is not five bytes long: every command word is (R73, R74) -/
  | wrongLength (bytes : Nat)
  deriving DecidableEq, Repr

/-- `OP`, bits 39:32 (R74). -/
def fieldOP (w : CommandWord) : Byte := w.extractLsb' 32 8
/-- `A`, bits 31:24. -/
def fieldA (w : CommandWord) : Byte := w.extractLsb' 24 8
/-- `B`, bits 23:16. -/
def fieldB (w : CommandWord) : Byte := w.extractLsb' 16 8
/-- `C`, bits 15:8. -/
def fieldC (w : CommandWord) : Byte := w.extractLsb' 8 8
/-- `D`, bits 7:0. -/
def fieldD (w : CommandWord) : Byte := w.extractLsb' 0 8

/-- The word whose byte sequence is `[OP, A, B, C, D]`: the most significant byte is `OP` (R74). -/
def wordOf (op a b c d : Byte) : CommandWord :=
  BitVec.ofNat Config.cmdW ((((op.toNat * 256 + a.toNat) * 256 + b.toNat) * 256 + c.toNat) * 256 + d.toNat)

/-- The command `i` if every reserved field is zero, else the rejection of R79. -/
def ifReservedZero (op : Byte) (reservedZero : Bool) (i : Instr) : Except DecodeError Instr :=
  if reservedZero then .ok i else .error (.reservedNonzero op)

/-- Decoding by fields (R75, R76, R79): total, one command per opcode, every other opcode rejected. -/
def decodeFields (op a b c d : Byte) : Except DecodeError Instr :=
  match op.toNat with
  | 0x01 => ifReservedZero op (b == 0 && c == 0 && d == 0) (.init a)
  | 0x02 => ifReservedZero op (a == 0 && b == 0 && c == 0 && d == 0) .clear
  | 0x03 => ifReservedZero op (d == 0) (.drawPixel a.toNat b.toNat c)
  | 0x04 => .ok (.drawSquare a.toNat b.toNat c.toNat d.toNat)
  | 0x05 => ifReservedZero op (decide (a.toNat ≤ 1) && b == 0 && c == 0 && d == 0) (.drawBorder (a.getLsbD 0))
  | 0x06 => ifReservedZero op (decide (a.toNat ≤ 1) && b == 0 && c == 0 && d == 0) (.setBorder (a.getLsbD 0))
  | 0x07 => ifReservedZero op (d == 0) (.drawString a.toNat b.toNat c.toNat)
  | 0x08 => ifReservedZero op (b == 0 && c == 0 && d == 0) (.displayMessage a.toNat)
  | 0x09 => ifReservedZero op (a == 0 && b == 0 && c == 0 && d == 0) .update
  | _ => .error (.unassignedOpcode op)

/-- "Decoding is total on every 40-bit word" (R77). -/
def decode (w : CommandWord) : Except DecodeError Instr :=
  decodeFields (fieldOP w) (fieldA w) (fieldB w) (fieldC w) (fieldD w)

/-- Decoding a byte sequence, total on any bytes: a command is the five bytes `[OP, A, B, C, D]` (R74). -/
def decodeBytes : List Byte → Except DecodeError Instr
  | [op, a, b, c, d] => decodeFields op a b c d
  | bytes => .error (.wrongLength bytes.length)

/-- An operand number as its 8-bit field (R74: no field is sign-extended, scaled or shifted). -/
def operandByte (v : Nat) : Byte := BitVec.ofNat 8 v

/-- The solid bit as field A: bit 24 of the word, the other seven bits zero (R75). -/
def solidByte (solid : Bool) : Byte := if solid then 0x01#8 else 0x00#8

/-- The command's word (R75, R76). -/
def encode : Instr → CommandWord
  | .init h => wordOf 0x01#8 h 0#8 0#8 0#8
  | .clear => wordOf 0x02#8 0#8 0#8 0#8 0#8
  | .drawPixel x y color => wordOf 0x03#8 (operandByte x) (operandByte y) color 0#8
  | .drawSquare x y width height =>
    wordOf 0x04#8 (operandByte x) (operandByte y) (operandByte width) (operandByte height)
  | .drawBorder solid => wordOf 0x05#8 (solidByte solid) 0#8 0#8 0#8
  | .setBorder solid => wordOf 0x06#8 (solidByte solid) 0#8 0#8 0#8
  | .drawString x y n => wordOf 0x07#8 (operandByte x) (operandByte y) (operandByte n) 0#8
  | .displayMessage n => wordOf 0x08#8 (operandByte n) 0#8 0#8 0#8
  | .update => wordOf 0x09#8 0#8 0#8 0#8 0#8

/-- A row of spec/opcode_table.json. -/
structure OpcodeRow where
  mnemonic : String
  mask : CommandWord
  pattern : CommandWord
  deriving DecidableEq, Repr

/-- The word matches the row: `(w & mask) = match` (R77). -/
def OpcodeRow.matchesWord (r : OpcodeRow) (w : CommandWord) : Bool := w &&& r.mask == r.pattern

/-- The row of spec/opcode_table.json a command is encoded by. -/
def tableRow : Instr → OpcodeRow
  | .init _ => ⟨"INIT", 0xFF00FFFFFF#40, 0x0100000000#40⟩
  | .clear => ⟨"CLEAR", 0xFFFFFFFFFF#40, 0x0200000000#40⟩
  | .drawPixel _ _ _ => ⟨"DRAW_PIXEL", 0xFF000000FF#40, 0x0300000000#40⟩
  | .drawSquare _ _ _ _ => ⟨"DRAW_SQUARE", 0xFF00000000#40, 0x0400000000#40⟩
  | .drawBorder _ => ⟨"DRAW_BORDER", 0xFFFEFFFFFF#40, 0x0500000000#40⟩
  | .setBorder _ => ⟨"SET_BORDER", 0xFFFEFFFFFF#40, 0x0600000000#40⟩
  | .drawString _ _ _ => ⟨"DRAW_STRING", 0xFF000000FF#40, 0x0700000000#40⟩
  | .displayMessage _ => ⟨"DISPLAY_MESSAGE", 0xFF00FFFFFF#40, 0x0800000000#40⟩
  | .update => ⟨"UPDATE", 0xFFFFFFFFFF#40, 0x0900000000#40⟩

/-- spec/opcode_table.json, row by row. -/
def opcodeTable : List OpcodeRow :=
  [tableRow (.init 0#8), tableRow .clear, tableRow (.drawPixel 0 0 0#8), tableRow (.drawSquare 0 0 0 0),
    tableRow (.drawBorder false), tableRow (.setBorder false), tableRow (.drawString 0 0 0),
    tableRow (.displayMessage 0), tableRow .update]

/-- The command word whose low `nbits` bits are those of `w` and whose other bits are zero, or none where they do not fit the `CMD_W`
bits of a command word. The table numbers the bits of its one word as R74 does: bit 0 is the least significant bit of `D`. -/
def tableWord (nbits w : Nat) : Option CommandWord :=
  if w % 2 ^ nbits < 2 ^ Config.cmdW then some (BitVec.ofNat Config.cmdW (w % 2 ^ nbits)) else none

/-- The instruction the decoder reads from a word numbered as spec/opcode_table.json numbers it. -/
def decodeTableWord (nbits w : Nat) : Option Instr :=
  match tableWord nbits w with
  | none => none
  | some word => (decode word).toOption

end Sys2Proof
end

