-- ==== Sys2Proof/Machine/State.lean ====
section
/-! DEFINITION. The state of the block (10_state.md R30, R45; 20_memory.md R59) and its value after reset, as plain data. -/

namespace Sys2Proof.Machine

/-- The framebuffer as a list of (index, byte) pairs in the canonical form `Memory.wf` (Machine/Ops.lean): indices strictly
rising, none past the end, no entry equal to the reset byte an unlisted index reads as (10_state.md R32). -/
abbrev Memory := List Host.Cell

/-- A framebuffer index: `0 ≤ i < 1024` (20_memory.md R47). No other index exists. -/
abbrev FbIndex := Fin Config.fbBytes

/-- A position in a command's pseudocode (10_state.md R34): the number of pseudocode steps done, and whether the transfer of the
step at `pos` has been issued and is not yet completed. -/
structure Progress where
  pos : Nat
  inFlight : Bool
  deriving DecidableEq, Repr

/-- `start`: nothing done, nothing in flight (60_exceptions.md R157). -/
def Progress.start : Progress := { pos := 0, inFlight := false }

/-- `SEQ`, the command sequencer (10_state.md R34). -/
inductive Seq where
  /-- no command is running; the command port accepts a command -/
  | idle
  /-- a command is running; the command port accepts nothing -/
  | busy (command : Instr) (progress : Progress)
  /-- a fault was raised; nothing is accepted until reset -/
  | faulted
  deriving DecidableEq, Repr

/-- One issue event of the transfer log: `(BUS, addr, bytes)` (20_memory.md R57, R59). -/
structure Transfer where
  bus : Option BusHandle
  addr : BusAddr
  bytes : List Byte
  deriving DecidableEq, Repr

/-- What the platform answers to a transfer (20_memory.md R57, R58). `ok` and `fail` complete it; `pending` is no answer yet. -/
inductive Answer where
  | ok
  | fail
  | pending
  deriving DecidableEq, Repr

/-- The state of the block, and the two inputs a step reads. `fb` to `log` are the spec's state (R30, R45, R59). `offered` and
`answers` are the model's own: the words the host is offering, and the platform's answers to the transfers still to complete,
each oldest first; a transfer past the end of `answers` is answered `ok` (log entries 1 and 3). -/
structure State where
  fb : Memory
  bus : Option BusHandle
  seq : Seq
  faultCode : BitVec 2
  faultWord : CommandWord
  log : List Transfer
  offered : List CommandWord
  answers : List Answer
  deriving DecidableEq, Repr

/-- How a step of the model can stop with a fault: never. The block's own two faults, IllegalCommand and NotInitialized, have an
entry the spec describes, so they are next states (60_exceptions.md R157); nothing else of the block can fail (R159). -/
inductive Fault where
  deriving DecidableEq, Repr

/-- How a step can be refused. -/
inductive Refusal where
  /-- Raised by an arm of `exec` that has no meaning yet; no arm raises it now. Safe: a refused step satisfies no claim. -/
  | notModelled (mnemonic : String)
  deriving DecidableEq, Repr

/-- The block right after reset: every value of 10_state.md R45. The two inputs are empty: no word is offered and no answer but
`ok` is planned (DESIGN CHOICE, log entries 1 and 3; no statement rests on either value). -/
def State.reset : State where
  fb := []
  bus := none
  seq := .idle
  faultCode := 0#2
  faultWord := 0#Config.cmdW
  log := []
  offered := []
  answers := []

end Sys2Proof.Machine
end

