-- ==== Sys2Proof/Machine/Flags.lean ====
section
/-! DEFINITION. The block has no condition flags (10_state.md R38). What stands in their place is `STATUS`, an 8-bit observation
computed from `SEQ`, `BUS` and `FAULT_CODE`, with no side effect (10_state.md R36). -/

namespace Sys2Proof.Machine

/-- `SEQ` is `BUSY(...)`. -/
def Seq.isBusy : Seq → Bool
  | .idle => false
  | .busy _ _ => true
  | .faulted => false

/-- `INIT_DONE = (BUS ≠ NONE)`, an abbreviation and not a register (10_state.md R33). -/
def State.initDone (s : State) : Bool := s.bus.isSome

/-- `STATUS` (10_state.md R36): bit 0 BUSY, bit 1 INIT_DONE, bits 3:2 FAULT_CODE, bits 7:4 zero. -/
def State.status (s : State) : Byte :=
  BitVec.ofNat 8 (s.faultCode.toNat * 4 + s.initDone.toNat * 2 + s.seq.isBusy.toNat)

end Sys2Proof.Machine
end

