-- ==== Sys2Proof/Machine/Operands.lean ====
section
/-! DEFINITION. Operand forms: truthiness, bounds, pixel and page addressing, the loops of the shapes and the text cursor
(00_scope.md R10–R14; 20_memory.md R48, R49; 43_shapes.md R119, R124; 44_text_stubs.md R135). -/

namespace Sys2Proof.Machine

/-- `truthy(v)` is `v ≠ 0` (00_scope.md R13). -/
def truthy (v : Byte) : Bool := v != 0#8

/-- A pixel coordinate is in bounds (00_scope.md R14). -/
abbrev InBounds (x y : Nat) : Prop := x < Config.width ∧ y < Config.height

/-- `PixelIndex(x, y) = (y / 8) * 128 + x` (20_memory.md R49; conflict C6: pixel (10, 20) is byte 266). -/
def pixelIndex (x : Fin Config.width) (y : Fin Config.height) : FbIndex :=
  ⟨y.val / Config.pageRows * Config.width + x.val, by
    have := x.isLt; have := y.isLt; simp only [Config.width, Config.height, Config.pageRows, Config.fbBytes] at *; omega⟩

/-- `PixelBit(y) = y % 8`, bit 0 the topmost row of the page (20_memory.md R49, R51). -/
def pixelBit (y : Nat) : Nat := y % Config.pageRows

/-- The one-bit mask `1 << PixelBit(y)` (42_pixel_writer.md R111). -/
def pixelMask (y : Nat) : Byte := 1#8 <<< pixelBit y

/-- Byte `c` of page `p`: index `p*128 + c` (20_memory.md R48). -/
def sliceIndex (p : Fin Config.pages) (c : Fin Config.width) : FbIndex :=
  ⟨p.val * Config.width + c.val, by
    have := p.isLt; have := c.isLt; simp only [Config.width, Config.pages, Config.fbBytes] at *; omega⟩

/-- `for n in [a .. b) step k`: `a, a+k, a+2k, ...` while below `b`, ascending (00_scope.md R11). -/
def loopValues (a b k : Nat) : List Nat := List.range' a ((b - a + (k - 1)) / k) k

/-- The cells DRAW_SQUARE visits, row by row, with exact bounds `x + width`, `y + height` (43_shapes.md R119, R121). -/
def rectCells (x y width height : Nat) : List (Nat × Nat) :=
  (loopValues y (y + height) 1).flatMap fun j => (loopValues x (x + width) 1).map fun i => (i, j)

/-- The loop step of a border style: 1 for solid, 2 for dotted (43_shapes.md R124). -/
def borderStep (solid : Bool) : Nat := if solid then 1 else 2

/-- The cells DRAW_BORDER visits, in the order of its two loops (43_shapes.md R124). -/
def borderCells (solid : Bool) : List (Nat × Nat) :=
  ((loopValues 0 Config.width (borderStep solid)).flatMap fun i => [(i, 0), (i, Config.height - 1)]) ++
    (loopValues 0 Config.height (borderStep solid)).flatMap fun j => [(0, j), (Config.width - 1, j)]

/-- The text cursor after `k` characters: `x + 6k`, exact (44_text_stubs.md R136). -/
def textCursor (x k : Nat) : Nat := x + k * Config.glyphAdvance

end Sys2Proof.Machine
end

