-- ==== Sys2Proof/Machine/Ops.lean ====
section
/-! DEFINITION. The operations the commands share: framebuffer accesses, the pixel write, transfers and their answers, taking a
fault, and running a command's pseudocode (20_memory.md, 42_pixel_writer.md R111, 60_exceptions.md R157). -/

namespace Sys2Proof.Machine

/-! ### The framebuffer -/

/-- The entries from index `lo` on are strictly rising, inside the framebuffer and none is the reset byte. -/
def Memory.wfFrom : Nat → Memory → Bool
  | _, [] => true
  | lo, (a, v) :: rest => decide (lo ≤ a) && decide (a < Config.fbBytes) && v != Config.resetByte && Memory.wfFrom (a + 1) rest

/-- The canonical form: equal framebuffers are equal lists. -/
def Memory.wf (m : Memory) : Bool := Memory.wfFrom 0 m

/-- The byte at an index; an unlisted byte holds its reset value (10_state.md R32). -/
def Memory.lookup : Memory → Nat → Byte
  | [], _ => Config.resetByte
  | (a, v) :: rest, i => if i = a then v else Memory.lookup rest i

/-- An entry in front of a memory whose entries all lie above it; a reset byte is not listed. -/
def Memory.consCell (i : Nat) (v : Byte) (m : Memory) : Memory := if v = Config.resetByte then m else (i, v) :: m

/-- The memory with byte `i` set, in canonical form. -/
def Memory.store : Memory → Nat → Byte → Memory
  | [], i, v => Memory.consCell i v []
  | (a, u) :: rest, i, v =>
    if i < a then Memory.consCell i v ((a, u) :: rest)
    else if i = a then Memory.consCell i v rest
    else (a, u) :: Memory.store rest i v

/-- `FB[i]` (20_memory.md R47). -/
def Memory.read (m : Memory) (i : FbIndex) : Byte := Memory.lookup m i.val

/-- `FB[i] <- v` (20_memory.md R47). -/
def Memory.write (m : Memory) (i : FbIndex) (v : Byte) : Memory := Memory.store m i.val v

/-- Every byte 0x00: the framebuffer after `for i in [0 .. 1024): FB[i] <- 0x00` (41_init_clear.md R105; log entry 13). -/
def Memory.zero : Memory := []

/-- A pixel is on when its bit is 1 (20_memory.md R49). -/
def Memory.pixel (m : Memory) (x : Fin Config.width) (y : Fin Config.height) : Bool :=
  (m.read (pixelIndex x y)).getLsbD (pixelBit y)

/-- `PixelWrite(x, y, on)` (42_pixel_writer.md R111): an out-of-bounds pixel is dropped (R112, conflict C4); an in-bounds one is a
read-modify-write of one byte. -/
def Memory.pixelWrite (m : Memory) (x y : Nat) (on : Bool) : Memory :=
  if h : InBounds x y then
    let i := pixelIndex ⟨x, h.1⟩ ⟨y, h.2⟩
    m.write i (if on then m.read i ||| pixelMask y else m.read i &&& ~~~pixelMask y)
  else m

/-- The page slice `FB[p*128 .. p*128+128)`, column 0 first (20_memory.md R51, 30_encoding.md R85). -/
def Memory.pageSlice (m : Memory) (p : Fin Config.pages) : List Byte :=
  (List.finRange Config.width).map fun c => m.read (sliceIndex p c)

/-! ### Frames and transfers -/

/-- A command frame `[0x00, cmd_byte, param...]` (30_encoding.md R84, R87). -/
def cmdFrame (c : Byte) (params : List Byte) : List Byte := Config.cmdPrefix :: c :: params

/-- The data frame of page `p`: `[0x40] ++ FB[p*128 .. p*128+128)` (30_encoding.md R85, R88). -/
def dataFrame (m : Memory) (p : Fin Config.pages) : List Byte := Config.dataPrefix :: m.pageSlice p

/-- The issue event of a transfer: it is appended to the log on the bus `BUS` names now (20_memory.md R57, R71). -/
def State.issueTransfer (addr : BusAddr) (bytes : List Byte) (s : State) : State :=
  { s with log := s.log ++ [{ bus := s.bus, addr := addr, bytes := bytes }] }

/-- Whether the answer leaves its transfer uncompleted. -/
def Answer.isPending : Answer → Bool
  | .ok => false
  | .fail => false
  | .pending => true

/-- Completing the transfer in flight: the state after the platform's answer, whose result is not inspected (20_memory.md R57,
R58), or none while there is no answer yet. -/
def State.takeAnswer (s : State) : Option State :=
  match s.answers with
  | [] => some s
  | a :: rest => if a.isPending then none else some { s with answers := rest }

/-! ### Faults (60_exceptions.md R154, R157) -/

/-- The block's two faults. -/
inductive BlockFault where
  | illegalCommand
  | notInitialized
  deriving DecidableEq, Repr

/-- The fault's code (R154). -/
def BlockFault.code : BlockFault → BitVec 2
  | .illegalCommand => 1#2
  | .notInitialized => 2#2

/-- `raise F(w)`: exactly three writes (R157, R161). There is no return from it but reset (R162). -/
def State.raiseFault (f : BlockFault) (w : CommandWord) (s : State) : State :=
  { s with faultCode := f.code, faultWord := w, seq := .faulted }

/-! ### Running a command -/

/-- One step of a command's pseudocode. -/
inductive Action where
  /-- `BUS <- h` -/
  | bindBus (h : BusHandle)
  /-- `for i in [0 .. 1024): FB[i] <- 0x00` -/
  | zeroFb
  /-- `PixelWrite(x, y, on)` -/
  | pixelWrite (x y : Nat) (on : Bool)
  /-- the text cursor takes the value `cx`; no glyph pixel is drawn (44_text_stubs.md R135, R138) -/
  | advanceCursor (cx : Nat)
  /-- `SendCmd(c, p...)` -/
  | sendCmd (c : Byte) (params : List Byte)
  /-- `SendData(p)` -/
  | sendData (p : Fin Config.pages)
  deriving DecidableEq, Repr

/-- The step is a transfer, which waits for its answer. -/
def Action.isTransfer : Action → Bool
  | .bindBus _ => false
  | .zeroFb => false
  | .pixelWrite _ _ _ => false
  | .advanceCursor _ => false
  | .sendCmd _ _ => true
  | .sendData _ => true

/-- What the step does to the state; of a transfer, its issue event. A data frame is read when it is issued (30_encoding.md R88). -/
def Action.apply (a : Action) (s : State) : State :=
  match a with
  | .bindBus h => { s with bus := some h }
  | .zeroFb => { s with fb := Memory.zero }
  | .pixelWrite x y on => { s with fb := s.fb.pixelWrite x y on }
  | .advanceCursor _ => s
  | .sendCmd c params => s.issueTransfer Config.panelAddr (cmdFrame c params)
  | .sendData p => s.issueTransfer Config.panelAddr (dataFrame s.fb p)

/-- Runs the steps `steps` of command `cmd`, the first of which stands at position `pos`, in order, each finished before the next
(20_memory.md R62): to the command's end, `SEQ <- IDLE`, or to the first transfer with no answer yet, where the block stays
`BUSY` with that transfer in flight (R57, R58). -/
def runSteps (cmd : Instr) : List Action → Nat → State → State
  | [], _, s => { s with seq := .idle }
  | a :: rest, pos, s =>
    if a.isTransfer then
      match (a.apply s).takeAnswer with
      | some s' => runSteps cmd rest (pos + 1) s'
      | none => { a.apply s with seq := .busy cmd { pos := pos, inFlight := true } }
    else runSteps cmd rest (pos + 1) (a.apply s)

/-- Goes on with a running command whose pseudocode is `steps`, from its progress: a transfer in flight has to be answered first;
with no answer nothing happens (20_memory.md R57, R58). -/
def resumeSteps (cmd : Instr) (steps : List Action) (p : Progress) (s : State) : State :=
  if p.inFlight then
    match s.takeAnswer with
    | some s' => runSteps cmd (steps.drop (p.pos + 1)) (p.pos + 1) s'
    | none => s
  else runSteps cmd (steps.drop p.pos) p.pos s

/-- The command is an INIT, the one command allowed while `BUS = NONE` (`OP(w) = 0x01` in the check of R157). -/
def isInit : Instr → Bool
  | .init _ => true
  | .clear => false
  | .drawPixel _ _ _ => false
  | .drawSquare _ _ _ _ => false
  | .drawBorder _ => false
  | .setBorder _ => false
  | .drawString _ _ _ => false
  | .displayMessage _ => false
  | .update => false

/-- `Accept` of a legal command (60_exceptions.md R157), after its word was found to match a row: the `NotInitialized` check, then
`SEQ <- BUSY(command, start)` and the command's pseudocode. A block that is not `IDLE` accepts nothing (20_memory.md R67,
60_exceptions.md R158): its state stays as it is. -/
def acceptCommand (cmd : Instr) (steps : List Action) (s : State) : Host.Outcome State Fault Refusal :=
  match s.seq with
  | .idle =>
    if !isInit cmd && !s.initDone then .next (s.raiseFault .notInitialized (encode cmd))
    else .next (runSteps cmd steps 0 { s with seq := .busy cmd .start })
  | .busy _ _ => .next s
  | .faulted => .next s

end Sys2Proof.Machine
end

