-- ==== Sys2Proof/Machine/PixelWriter.lean ====
section
/-! DEFINITION. DRAW_PIXEL (42_pixel_writer.md R113–R118). `PixelWrite` itself is `Memory.pixelWrite` (R111, R112). -/

namespace Sys2Proof.Machine

/-- The pseudocode of DRAW_PIXEL (42_pixel_writer.md R113, R114). -/
def drawPixelSteps (x y : Nat) (color : Byte) : List Action := [.pixelWrite x y (truthy color)]

/-- DRAW_PIXEL (42_pixel_writer.md R113): sets or clears one pixel, with clipping, and sends nothing. -/
def execDrawPixel (x y : Nat) (color : Byte) (s : State) : Host.Outcome State Fault Refusal :=
  acceptCommand (.drawPixel x y color) (drawPixelSteps x y color) s

end Sys2Proof.Machine
end

