-- ==== Sys2Proof/Machine/Serializer.lean ====
section
/-! DEFINITION. The OLED page serializer: `UpdateProc` and UPDATE (45_page_serializer.md R143–R153). -/

namespace Sys2Proof.Machine

/-- The page command byte `PAGE_CMD_BASE + p` (30_encoding.md R90). -/
def pageCmd (p : Fin Config.pages) : Byte := Config.pageCmdBase + BitVec.ofNat 8 p.val

/-- One page: the page-select triple, then the page's data frame (30_encoding.md R89; 45_page_serializer.md R143, R144; C3). -/
def pageSteps (p : Fin Config.pages) : List Action :=
  [.sendCmd (pageCmd p) [], .sendCmd Config.colLoCmd [], .sendCmd Config.colHiCmd [], .sendData p]

/-- `UpdateProc()`: all eight pages, in page order 0 to 7 (45_page_serializer.md R143). -/
def updateProc : List Action := (List.finRange Config.pages).flatMap pageSteps

/-- The pseudocode of UPDATE (45_page_serializer.md R146). -/
def updateSteps : List Action := updateProc

/-- UPDATE (45_page_serializer.md R146): sends the framebuffer to the panel and changes no bit of it. -/
def execUpdate (s : State) : Host.Outcome State Fault Refusal := acceptCommand .update updateSteps s

end Sys2Proof.Machine
end

