-- ==== Sys2Proof/Machine/InitClear.lean ====
section
/-! DEFINITION. INIT and CLEAR, the framebuffer's lifecycle (41_init_clear.md R101–R110), and the init sequence
(30_encoding.md R91). -/

namespace Sys2Proof.Machine

/-- `INIT_SEQ` (30_encoding.md R91): the sixteen panel commands with their parameters, in order; the fourteenth is 0xA4 (C1). -/
def initSeq : List (Byte × List Byte) :=
  [(0xAE#8, []), (0xD5#8, [0x80#8]), (0xA8#8, [0x3F#8]), (0xD3#8, [0x00#8]),
   (0x40#8, []), (0x8D#8, [0x14#8]), (0x20#8, [0x00#8]), (0xA1#8, []),
   (0xC8#8, []), (0xDA#8, [0x12#8]), (0x81#8, [0x7F#8]), (0xD9#8, [0xF1#8]),
   (0xDB#8, [0x40#8]), (0xA4#8, []), (0xA6#8, []), (0xAF#8, [])]

/-- One command frame per step of `INIT_SEQ` (41_init_clear.md R101; 20_memory.md R60). -/
def initSeqSteps : List Action := initSeq.map fun step => .sendCmd step.1 step.2

/-- `ClearProc()` (41_init_clear.md R105): zero the framebuffer, then `UpdateProc()`. -/
def clearProc : List Action := .zeroFb :: updateProc

/-- The "clear" step inside SET_BORDER and DISPLAY_MESSAGE (43_shapes.md R131, 44_text_stubs.md R140): `ClearProc()`, its update
included unless `CLEAR_IN_COMPOSITION_UPDATES` is false (I8). -/
def clearInComposition : List Action := if Config.clearInCompositionUpdates then clearProc else [.zeroFb]

/-- The pseudocode of INIT (41_init_clear.md R101). -/
def initSteps (h : BusHandle) : List Action := .bindBus h :: (initSeqSteps ++ clearProc)

/-- The pseudocode of CLEAR (41_init_clear.md R106). -/
def clearSteps : List Action := clearProc

/-- INIT (41_init_clear.md R101): binds the bus before its first transfer (R103), sends the init sequence, zeroes the framebuffer
and sends it. It may be issued again (R102). -/
def execInit (h : BusHandle) (s : State) : Host.Outcome State Fault Refusal := acceptCommand (.init h) (initSteps h) s

/-- CLEAR (41_init_clear.md R106): zeroes the framebuffer and sends it to the panel. -/
def execClear (s : State) : Host.Outcome State Fault Refusal := acceptCommand .clear clearSteps s

end Sys2Proof.Machine
end

