-- ==== Sys2Proof/Machine/Shapes.lean ====
section
/-! DEFINITION. The shape primitives DRAW_SQUARE, DRAW_BORDER and SET_BORDER (43_shapes.md R119–R134). -/

namespace Sys2Proof.Machine

/-- `PixelWrite(i, j, true)` on each cell: shapes only set pixels (43_shapes.md R123, R128). -/
def setCells (cells : List (Nat × Nat)) : List Action := cells.map fun cell => .pixelWrite cell.1 cell.2 true

/-- The pseudocode of DRAW_SQUARE (43_shapes.md R119). -/
def drawSquareSteps (x y width height : Nat) : List Action := setCells (rectCells x y width height) ++ updateProc

/-- The pseudocode of DRAW_BORDER (43_shapes.md R124). -/
def drawBorderSteps (solid : Bool) : List Action := setCells (borderCells solid)

/-- The pseudocode of SET_BORDER (43_shapes.md R130). -/
def setBorderSteps (solid : Bool) : List Action := clearInComposition ++ (drawBorderSteps solid ++ updateProc)

/-- DRAW_SQUARE (43_shapes.md R119): fills a rectangle with clipping, then sends the whole framebuffer. -/
def execDrawSquare (x y width height : Nat) (s : State) : Host.Outcome State Fault Refusal :=
  acceptCommand (.drawSquare x y width height) (drawSquareSteps x y width height) s

/-- DRAW_BORDER (43_shapes.md R124): sets the edge pixels, solid or dotted; it does not clear and does not update. -/
def execDrawBorder (solid : Bool) (s : State) : Host.Outcome State Fault Refusal :=
  acceptCommand (.drawBorder solid) (drawBorderSteps solid) s

/-- SET_BORDER (43_shapes.md R130): clears, draws the border and updates. -/
def execSetBorder (solid : Bool) (s : State) : Host.Outcome State Fault Refusal :=
  acceptCommand (.setBorder solid) (setBorderSteps solid) s

end Sys2Proof.Machine
end

