-- ==== Sys2Proof/Machine/TextStubs.lean ====
section
/-! DEFINITION. The text stubs DRAW_STRING and DISPLAY_MESSAGE, which draw no pixel (44_text_stubs.md R135–R142). -/

namespace Sys2Proof.Machine

/-- The cursor loop of DRAW_STRING: after each of `n` characters the cursor moves on and nothing is drawn (44_text_stubs.md R135,
R136, R138). -/
def textSteps (x n : Nat) : List Action := (List.range n).map fun k => .advanceCursor (textCursor x (k + 1))

/-- The body of DRAW_STRING, update included (44_text_stubs.md R135). `y` is read by nothing (R137). -/
def drawStringBody (x _y n : Nat) : List Action := textSteps x n ++ updateProc

/-- The pseudocode of DRAW_STRING (44_text_stubs.md R135). -/
def drawStringSteps (x y n : Nat) : List Action := drawStringBody x y n

/-- The pseudocode of DISPLAY_MESSAGE (44_text_stubs.md R139). -/
def displayMessageSteps (n : Nat) : List Action := clearInComposition ++ (drawStringBody 0 0 n ++ updateProc)

/-- DRAW_STRING (44_text_stubs.md R135): draws no pixel and sends the whole framebuffer. -/
def execDrawString (x y n : Nat) (s : State) : Host.Outcome State Fault Refusal :=
  acceptCommand (.drawString x y n) (drawStringSteps x y n) s

/-- DISPLAY_MESSAGE (44_text_stubs.md R139): clears, runs the text stub at (0, 0), and updates. -/
def execDisplayMessage (n : Nat) (s : State) : Host.Outcome State Fault Refusal :=
  acceptCommand (.displayMessage n) (displayMessageSteps n) s

end Sys2Proof.Machine
end

