-- ==== Sys2Proof/Machine/Sequencer.lean ====
section
/-! DEFINITION. The sequencer between commands: taking a word from the command port, rejecting an illegal one, and going on with a
running command (20_memory.md R67; 60_exceptions.md R155, R157). -/

namespace Sys2Proof.Machine

/-- The pseudocode of each command. -/
def stepsOf : Instr → List Action
  | .init h => initSteps h
  | .clear => clearSteps
  | .drawPixel x y color => drawPixelSteps x y color
  | .drawSquare x y width height => drawSquareSteps x y width height
  | .drawBorder solid => drawBorderSteps solid
  | .setBorder solid => setBorderSteps solid
  | .drawString x y n => drawStringSteps x y n
  | .displayMessage n => displayMessageSteps n
  | .update => updateSteps

/-- Goes on with the running command from its progress. -/
def resumeCommand (cmd : Instr) (p : Progress) (s : State) : State := resumeSteps cmd (stepsOf cmd) p s

/-- The oldest word on the command port and the state once it is accepted, or none where no word is offered (20_memory.md R67). -/
def takeWord (s : State) : Option (CommandWord × State) :=
  match s.offered with
  | [] => none
  | w :: rest => some (w, { s with offered := rest })

/-- Accepting a word that names no command: `raise IllegalCommand(w)` (60_exceptions.md R155, R157). -/
def rejectWord (w : CommandWord) (s : State) : State := s.raiseFault .illegalCommand w

end Sys2Proof.Machine
end

