-- ==== Sys2Proof/Machine/Dispatch.lean ====
section
/-! DEFINITION. One arm per command: each calls the command's meaning. -/

namespace Sys2Proof.Machine

def exec (i : Instr) (s : State) : Host.Outcome State Fault Refusal :=
  match i with
  | .init h => Sys2Proof.Machine.execInit h s
  | .clear => Sys2Proof.Machine.execClear s
  | .drawPixel x y color => Sys2Proof.Machine.execDrawPixel x y color s
  | .drawSquare x y width height => Sys2Proof.Machine.execDrawSquare x y width height s
  | .drawBorder solid => Sys2Proof.Machine.execDrawBorder solid s
  | .setBorder solid => Sys2Proof.Machine.execSetBorder solid s
  | .drawString x y n => Sys2Proof.Machine.execDrawString x y n s
  | .displayMessage n => Sys2Proof.Machine.execDisplayMessage n s
  | .update => Sys2Proof.Machine.execUpdate s

end Sys2Proof.Machine
end

