-- ==== Sys2Proof/Machine/HostPort.lean ====
section
/-! DEFINITION. What the host may do to the block (20_memory.md R68): issue a command, complete a transfer, observe, reset. These
are not steps of the block; a claim about a host applies them between steps. -/

namespace Sys2Proof.Machine

/-- `SEQ` is `FAULTED`. -/
def Seq.isFaulted : Seq → Bool
  | .idle => false
  | .busy _ _ => false
  | .faulted => true

/-- Issue command (20_memory.md R67). Unless `FAULTED`, the word waits on the port behind the words offered before it and none is
dropped (D30). "A word offered while `SEQ = FAULTED` is never accepted" (60_exceptions.md R158): the port refuses it. -/
def State.offer (w : CommandWord) (s : State) : State :=
  { s with offered := if s.seq.isFaulted then s.offered else s.offered ++ [w] }

/-- The host's two answers to a transfer (20_memory.md R57). -/
inductive TransferResult where
  | ok
  | fail
  deriving DecidableEq, Repr

/-- The result as an answer. -/
def TransferResult.answer : TransferResult → Answer
  | .ok => .ok
  | .fail => .fail

/-- A transfer is in flight (10_state.md R34, R40). -/
def Seq.inFlight : Seq → Bool
  | .idle => false
  | .busy _ p => p.inFlight
  | .faulted => false

/-- Complete transfer: the transfer in flight gets its answer (20_memory.md R58). With none in flight there is nothing to complete. -/
def State.completeTransfer (r : TransferResult) (s : State) : State :=
  match s.seq.inFlight, s.answers with
  | true, .pending :: rest => { s with answers := r.answer :: rest }
  | _, _ => s

/-- What the host reads (20_memory.md R69). `BUS` is not among it (10_state.md R37). -/
structure Observation where
  fb : List Byte
  status : Byte
  faultWord : CommandWord
  log : List Transfer
  deriving DecidableEq, Repr

/-- Observe: only while `IDLE` or `FAULTED`; a read while `BUSY` is not offered (20_memory.md R69, 70_reset_and_hazards.md R188).
It changes nothing. -/
def State.observe (s : State) : Option Observation :=
  if s.seq.isBusy then none
  else some
    { fb := (List.finRange Config.fbBytes).map s.fb.read
      status := s.status
      faultWord := s.faultWord
      log := s.log }

/-- The answers still to come once the transfer in flight, if there is one, is dropped by a reset (70_reset_and_hazards.md R182). -/
def State.answersAfterReset (s : State) : List Answer := if s.seq.inFlight then s.answers.drop 1 else s.answers

/-- The words still offered after a reset. A word that stood on the port of a `FAULTED` block is never accepted (20_memory.md R67,
60_exceptions.md R158), so none of them outlives the reset. DEDUCED (log entry 14) for a word offered while `BUSY` or `IDLE` that stood
behind the faulting one: it is then on offer to a `FAULTED` block as well. The words of a block that is not `FAULTED` stay. -/
def State.offeredAfterReset (s : State) : List CommandWord := if s.seq.isFaulted then [] else s.offered

/-- Reset, at any time: every state element at its reset value (70_reset_and_hazards.md R177), a running command abandoned (R182).
DESIGN CHOICE (log entry 14): the host's own inputs otherwise go on, that is the words waiting on the port of a block that is not
`FAULTED`, and the answers to later transfers. -/
def State.hostReset (s : State) : State :=
  { State.reset with offered := s.offeredAfterReset, answers := s.answersAfterReset }

end Sys2Proof.Machine
end

