-- ==== Sys2Proof/Machine/Step.lean ====
section
/-! DEFINITION. One step of the block, and the placing of a command word where the next step takes it. -/

namespace Sys2Proof.Machine

/-- One step. `IDLE`: the port's oldest word is accepted, checked and run (20_memory.md R67, 60_exceptions.md R157); with no word the
block waits. `BUSY`: the running command goes on once its transfer is answered, else the block waits (20_memory.md R58).
`FAULTED`: "the block does nothing further" (60_exceptions.md R158). A wait is a step that changes nothing (R163: "a run that
never ends"). -/
def step (s : State) : Host.Outcome State Fault Refusal :=
  match s.seq with
  | .faulted => .next s
  | .busy cmd p => .next (resumeCommand cmd p s)
  | .idle =>
    match takeWord s with
    | none => .next s
    | some (w, s') =>
      match decode w with
      | .error _ => .next (rejectWord w s')
      | .ok i => exec i s'

/-- The word of an instruction, numbered as spec/opcode_table.json numbers it, put at the front of the command port: the next step
of an `IDLE` block accepts it. A number that is no 40-bit word leaves the port as it is. -/
def State.withFetchWord (s : State) (nbits w : Nat) : State :=
  match tableWord nbits w with
  | none => s
  | some word => { s with offered := word :: s.offered }

end Sys2Proof.Machine
end

