-- ==== Sys2Proof/Safety.lean ====
section
/-! DEFINITION. The terms claims are stated in: when a command completes, what the wire carries and what the shapes cover, written
from the spec's tables and not from the meanings, and the invariants of a run. -/

namespace Sys2Proof.Machine

/-! ### When a command completes -/

/-- Idle with a bus bound: the port accepts a word, and a legal one runs (20_memory.md R67, 60_exceptions.md R157). -/
abbrev State.Ready (s : State) : Prop := s.seq = .idle ∧ s.bus.isSome = true

/-- The platform answers each of the next `n` transfers (20_memory.md R57, R58): none of their answers is still pending. -/
abbrev State.Answers (s : State) (n : Nat) : Prop := ∀ a ∈ s.answers.take n, a.isPending = false

/-- From `s` to `t` a command of `n` transfers ran to its end and, besides the framebuffer, the bus binding and the log, changed
nothing: no fault record, no offered word; `n` answers were taken. -/
abbrev Completed (n : Nat) (s t : State) : Prop :=
  t.seq = .idle ∧ t.faultCode = s.faultCode ∧ t.faultWord = s.faultWord ∧ t.offered = s.offered ∧
    t.answers = s.answers.drop n

/-- `raise F(w)` as a whole state (60_exceptions.md R157): the three writes, everything else as it was. -/
abbrev Faulted (code : BitVec 2) (w : CommandWord) (s t : State) : Prop :=
  t = { s with faultCode := code, faultWord := w, seq := .faulted }

/-! ### Illegal words (60_exceptions.md R155) -/

/-- `OP = 0x00` or `OP ≥ 0x0A`; or a reserved field is non-zero for a known `OP`; or `A > 1` for a border command
(30_encoding.md R75, R78, R79). -/
def IllegalWord (w : CommandWord) : Prop :=
  let op := w.toNat / 2 ^ 32
  let a := w.toNat / 2 ^ 24 % 256
  let b := w.toNat / 2 ^ 16 % 256
  let c := w.toNat / 2 ^ 8 % 256
  let d := w.toNat % 256
  op = 0x00 ∨ 0x0A ≤ op ∨
    ((op = 0x01 ∨ op = 0x08) ∧ (b ≠ 0 ∨ c ≠ 0 ∨ d ≠ 0)) ∨
    ((op = 0x02 ∨ op = 0x09) ∧ (a ≠ 0 ∨ b ≠ 0 ∨ c ≠ 0 ∨ d ≠ 0)) ∨
    ((op = 0x03 ∨ op = 0x07) ∧ d ≠ 0) ∨
    ((op = 0x05 ∨ op = 0x06) ∧ (1 < a ∨ b ≠ 0 ∨ c ≠ 0 ∨ d ≠ 0))

/-! ### What the wire carries -/

/-- The bytes of the transfer with index `t` of an update of `m` (45_page_serializer.md R144, the table). -/
def updateFrame (m : Memory) (t : Nat) : List Byte :=
  match t % 4 with
  | 0 => [0x00#8, BitVec.ofNat 8 (0xB0 + t / 4)]
  | 1 => [0x00#8, 0x00#8]
  | 2 => [0x00#8, 0x10#8]
  | _ => 0x40#8 :: (List.range 128).map fun c => m.lookup (t / 4 * 128 + c)

/-- `U(FB)` on a bus: the 32 transfers of one full update, each to address 0x3C (45_page_serializer.md R143, R144). -/
def fullUpdate (bus : Option BusHandle) (m : Memory) : List Transfer :=
  (List.range 32).map fun t => { bus := bus, addr := 0x3C#7, bytes := updateFrame m t }

/-- The sixteen init frames (30_encoding.md R91, the table). -/
def initFrames : List (List Byte) :=
  [[0x00#8, 0xAE#8], [0x00#8, 0xD5#8, 0x80#8], [0x00#8, 0xA8#8, 0x3F#8], [0x00#8, 0xD3#8, 0x00#8],
   [0x00#8, 0x40#8], [0x00#8, 0x8D#8, 0x14#8], [0x00#8, 0x20#8, 0x00#8], [0x00#8, 0xA1#8],
   [0x00#8, 0xC8#8], [0x00#8, 0xDA#8, 0x12#8], [0x00#8, 0x81#8, 0x7F#8], [0x00#8, 0xD9#8, 0xF1#8],
   [0x00#8, 0xDB#8, 0x40#8], [0x00#8, 0xA4#8], [0x00#8, 0xA6#8], [0x00#8, 0xAF#8]]

/-- The init sequence on a bus, each frame one transfer to address 0x3C (41_init_clear.md R101). -/
def initTransfers (bus : Option BusHandle) : List Transfer :=
  initFrames.map fun bytes => { bus := bus, addr := 0x3C#7, bytes := bytes }

/-- A frame the block may send: an init frame, a page-select frame of pages 0 to 7, or a data frame of 128 bytes
(30_encoding.md R83–R85, R89–R91, R94). -/
def LegalFrame (bytes : List Byte) : Prop :=
  bytes ∈ initFrames ∨ (∃ p, p < 8 ∧ bytes = [0x00#8, BitVec.ofNat 8 (0xB0 + p)]) ∨ bytes = [0x00#8, 0x00#8] ∨
    bytes = [0x00#8, 0x10#8] ∨ ∃ data : List Byte, bytes = 0x40#8 :: data ∧ data.length = 128

/-- Transfers of a whole command (70_reset_and_hazards.md R189, the table). -/
def transfersOf : Instr → Nat
  | .init _ => 48
  | .clear => 32
  | .drawPixel _ _ _ => 0
  | .drawSquare _ _ _ _ => 32
  | .drawBorder _ => 0
  | .setBorder _ => 64
  | .drawString _ _ _ => 32
  | .displayMessage _ => 96
  | .update => 32

/-- Bytes on the bus of a whole command (70_reset_and_hazards.md R189, the table). -/
def busBytesOf : Instr → Nat
  | .init _ => 1121
  | .clear => 1080
  | .drawPixel _ _ _ => 0
  | .drawSquare _ _ _ _ => 1080
  | .drawBorder _ => 0
  | .setBorder _ => 2160
  | .drawString _ _ _ => 1080
  | .displayMessage _ => 3240
  | .update => 1080

/-- Full updates of a whole command (70_reset_and_hazards.md R189, the table). -/
def fullUpdatesOf : Instr → Nat
  | .init _ => 1
  | .clear => 1
  | .drawPixel _ _ _ => 0
  | .drawSquare _ _ _ _ => 1
  | .drawBorder _ => 0
  | .setBorder _ => 2
  | .drawString _ _ _ => 1
  | .displayMessage _ => 3
  | .update => 1

/-- The frame is a data frame: "the first byte … alone says the frame's kind" (30_encoding.md R83, R86). -/
def isDataFrame (bytes : List Byte) : Bool := bytes.head? == some 0x40#8

/-! ### What the shapes cover -/

/-- The pixels of the border (43_shapes.md R125 solid, R126 dotted). -/
def borderPixel (solid : Bool) (x y : Nat) : Bool :=
  if solid then y == 0 || y == 63 || x == 0 || x == 127
  else ((y == 0 || y == 63) && x % 2 == 0) || ((x == 0 || x == 127) && y % 2 == 0)

/-- The byte table of the solid border: the mask ORed into byte `c` of page `p` (43_shapes.md R125). -/
def solidMask (p c : Nat) : Byte :=
  if c = 0 ∨ c = 127 then 0xFF#8 else if p = 0 then 0x01#8 else if p = 7 then 0x80#8 else 0x00#8

/-- The byte table of the dotted border, its rows ORed together (43_shapes.md R126): column bytes 0x55, and on even columns 0x01 in
page 0 and 0x80 in page 7. -/
def dottedMask (p c : Nat) : Byte :=
  (if c = 0 ∨ c = 127 then 0x55#8 else 0x00#8) ||| (if p = 0 ∧ c % 2 = 0 then 0x01#8 else 0x00#8) |||
    (if p = 7 ∧ c % 2 = 0 then 0x80#8 else 0x00#8)

/-- The mask of the border in byte `c` of page `p`. -/
def borderMask (solid : Bool) (p c : Nat) : Byte := if solid then solidMask p c else dottedMask p c

/-- The data frame of page `p` in SET_BORDER's second update (43_shapes.md R133). -/
def borderDataFrame (solid : Bool) (p : Nat) : List Byte :=
  if solid then
    [0x40#8, 0xFF#8] ++ List.replicate 126 (if p = 0 then 0x01#8 else if p = 7 then 0x80#8 else 0x00#8) ++ [0xFF#8]
  else if p = 0 then [0x40#8, 0x55#8] ++ (List.replicate 63 [0x00#8, 0x01#8]).flatten ++ [0x55#8]
  else if p = 7 then [0x40#8, 0xD5#8] ++ (List.replicate 63 [0x00#8, 0x80#8]).flatten ++ [0x55#8]
  else [0x40#8, 0x55#8] ++ List.replicate 126 0x00#8 ++ [0x55#8]

/-- The pixel lies in the rectangle `[x, x+width) × [y, y+height)`, exact bounds (43_shapes.md R119, R121). -/
def rectPixel (x y width height px py : Nat) : Bool :=
  decide (x ≤ px ∧ px < x + width ∧ y ≤ py ∧ py < y + height)

/-- `m` of the closed form: the OR of `1 << (r % 8)` for `r` in `[max(y, 8p) .. min(y + height, 8p + 8, 64))` (43_shapes.md R120). -/
def rectRowMask (y height p : Nat) : Byte :=
  (List.range' (max y (8 * p)) (min (min (y + height) (8 * p + 8)) 64 - max y (8 * p))).foldl
    (fun m r => m ||| 1#8 <<< (r % 8)) 0#8

/-- What the closed form ORs into byte `c` of page `p` (43_shapes.md R120). -/
def rectMask (x y width height p c : Nat) : Byte :=
  if x ≤ c ∧ c < min (x + width) 128 then rectRowMask y height p else 0x00#8

/-- The pixels a command may change (10_state.md R30, column "written by", and each command's rule): all of them for the commands
that zero the framebuffer, none for UPDATE and DRAW_STRING. -/
def mayChange (i : Instr) (px py : Nat) : Bool :=
  match i with
  | .init _ => true
  | .clear => true
  | .drawPixel x y _ => px == x && py == y
  | .drawSquare x y width height => rectPixel x y width height px py
  | .drawBorder solid => borderPixel solid px py
  | .setBorder _ => true
  | .drawString _ _ _ => false
  | .displayMessage _ => true
  | .update => false

/-! ### Invariants of a run -/

/-- What every state of a run satisfies, whatever the host does. -/
structure State.Inv (s : State) : Prop where
  /-- the framebuffer is in canonical form -/
  fbCanonical : s.fb.wf = true
  /-- "`FAULT_CODE ≠ 0` holds exactly when `SEQ = FAULTED`" (10_state.md R35) -/
  faultCodeIff : s.faultCode ≠ 0#2 ↔ s.seq = .faulted
  /-- "Code 3 is reserved and the block never writes it" (10_state.md R35) -/
  faultCodeLegal : s.faultCode ≠ 3#2
  /-- only a fault writes `FAULT_WORD` (10_state.md R35) -/
  faultWordZero : s.seq ≠ .faulted → s.faultWord = 0#40
  /-- no command runs with no bus bound (20_memory.md R71) -/
  busyBound : s.seq.isBusy = true → s.bus.isSome = true
  /-- a block seen `BUSY` waits for the transfer at its progress (20_memory.md R57) -/
  busyWaits : ∀ cmd p, s.seq = .busy cmd p →
    cmd.WellFormed ∧ p.inFlight = true ∧ ((stepsOf cmd)[p.pos]?.map Action.isTransfer) = some true
  /-- every transfer went out on a bound bus, to the panel, as a frame the block may send (20_memory.md R56, R71; 30_encoding.md R94) -/
  logLegal : ∀ tr ∈ s.log, tr.bus.isSome = true ∧ tr.addr = 0x3C#7 ∧ LegalFrame tr.bytes

/-- The panel settings come before any page data (30_encoding.md R92; 70_reset_and_hazards.md R184): nothing was sent and no bus is
bound; or the init sequence was sent first; or an INIT is waiting inside it. -/
def State.InitSequenceFirst (s : State) : Prop :=
  (s.seq.isBusy = false ∧ s.bus = none ∧ s.log = []) ∨
  (initFrames <+: s.log.map Transfer.bytes) ∨
  (∃ h k, s.seq = .busy (.init h) { pos := k + 1, inFlight := true } ∧ k < 16 ∧
    s.log.map Transfer.bytes = initFrames.take (k + 1))

end Sys2Proof.Machine
end

