-- ==== Sys2Proof/Certificates/Slice0/Obligations.lean ====
section
/-! DEFINITION. The statements for the provers, one definition each. Terms not of the machine itself (Ready, Answers, Completed,
fullUpdate, masks, invariants) are defined in Sys2Proof/Safety.lean from the spec's tables. -/

open Sys2Proof Sys2Proof.Machine

/-- One written-out word of each command decodes to that command. Derived from 30_encoding.md R74, 30_encoding.md R75,
30_encoding.md R76. -/
def Obligations.WrittenOutWordsDecode : Prop :=
  decode 0x0107000000#40 = .ok (.init 7#8) ∧
  decode 0x0200000000#40 = .ok .clear ∧
  decode 0x030A140100#40 = .ok (.drawPixel 10 20 1#8) ∧
  decode 0x043C1C0808#40 = .ok (.drawSquare 60 28 8 8) ∧
  decode 0x0501000000#40 = .ok (.drawBorder true) ∧
  decode 0x0600000000#40 = .ok (.setBorder false) ∧
  decode 0x07C864FF00#40 = .ok (.drawString 200 100 255) ∧
  decode 0x080C000000#40 = .ok (.displayMessage 12) ∧
  decode 0x0900000000#40 = .ok .update

/-- Decoding the word of a well-formed command gives the command back. Derived from 30_encoding.md R74, 30_encoding.md
R75, 30_encoding.md R76. -/
def Obligations.DecodeEncodeRoundTrip : Prop :=
  ∀ i : Instr, i.WellFormed → decode (encode i) = .ok i

/-- A word that decodes is the one word of its command. Derived from 30_encoding.md R74, 30_encoding.md R75,
30_encoding.md R79. -/
def Obligations.EncodeDecodeRoundTrip : Prop :=
  ∀ (w : CommandWord) (i : Instr), decode w = .ok i → i.WellFormed ∧ encode i = w

/-- The decoder accepts exactly the words that match a row of the opcode table, each by its single row. Formalises R77.
-/
def Obligations.DecodesExactlyTheTableRows : Prop :=
  ∀ w : CommandWord,
    (∀ i, decode w = .ok i → tableRow i ∈ opcodeTable ∧ (tableRow i).matchesWord w = true ∧ encode i = w) ∧
    (∀ r ∈ opcodeTable, r.matchesWord w = true → ∃ i, decode w = .ok i ∧ tableRow i = r) ∧
    ((∀ r ∈ opcodeTable, r.matchesWord w = false) → ∃ e, decode w = .error e) ∧
    (opcodeTable.filter fun r => r.matchesWord w).length ≤ 1

/-- A step of an idle block takes the oldest word offered and runs the command it decodes to. Derived from 20_memory.md
R67, 60_exceptions.md R157. What exec runs when some answer is pending is the model's way of holding a transfer in
flight (log entry 4). -/
def Obligations.StepRunsTheDecodedCommand : Prop :=
  ∀ (s : State) (w : CommandWord) (rest : List CommandWord) (i : Instr),
    s.seq = .idle → s.offered = w :: rest → decode w = .ok i → step s = exec i { s with offered := rest }

/-- An idle block with no word offered waits. Derived from 70_reset_and_hazards.md R177, 20_memory.md R67. -/
def Obligations.IdleBlockWithNoWordWaits : Prop :=
  ∀ s : State, s.seq = .idle → s.offered = [] → step s = .next s

/-- No step stops: every state has a next state. Derived from 60_exceptions.md R159, 60_exceptions.md R160,
60_exceptions.md R163. That a step of the model never stops is the form log entry 6 gives them. -/
def Obligations.EveryStepAnswersANextState : Prop :=
  (∀ s : State, ∃ t, step s = .next t) ∧ ∀ (i : Instr) (s : State), ∃ t, exec i s = .next t

/-- A word leaves the port only when the block is IDLE, one at a time, and none is dropped. Derived from 20_memory.md
R67, 60_exceptions.md R158. That exec at a state that is not IDLE answers that same state is the model's convention,
since step never calls exec there (log entry 15). -/
def Obligations.PortAcceptsOnlyWhenIdle : Prop :=
  (∀ s t : State, step s = .next t →
    t.offered = s.offered ∨ (s.seq = .idle ∧ ∃ w, s.offered = w :: t.offered)) ∧
  ∀ (i : Instr) (s : State), s.seq ≠ .idle → exec i s = .next s

/-- A word that matches no row raises IllegalCommand: the fault record is written, nothing else changes. Formalises
R155, R78, R79. -/
def Obligations.IllegalWordRaisesIllegalCommand : Prop :=
  (∀ w : CommandWord, IllegalWord w ↔ ∀ r ∈ opcodeTable, r.matchesWord w = false) ∧
  ∀ (s : State) (w : CommandWord) (rest : List CommandWord), s.seq = .idle → s.offered = w :: rest → IllegalWord w →
    ∃ t, step s = .next t ∧ Faulted 1#2 w { s with offered := rest } t

/-- A legal word other than INIT with no bus bound raises NotInitialized. Formalises R156. -/
def Obligations.LegalWordBeforeInitRaisesNotInitialized : Prop :=
  ∀ (s : State) (w : CommandWord) (rest : List CommandWord) (i : Instr),
    s.seq = .idle → s.bus = none → s.offered = w :: rest → decode w = .ok i → (∀ h, i ≠ .init h) →
    ∃ t, step s = .next t ∧ Faulted 2#2 w { s with offered := rest } t

/-- A fault is entered only at acceptance, changes only the fault record, and names its word. Derived from
60_exceptions.md R154, 60_exceptions.md R157, 60_exceptions.md R159, 10_state.md R35. -/
def Obligations.FaultIsPreciseAndNamed : Prop :=
  ∀ s t : State, step s = .next t →
    (t.seq = .faulted → s.seq ≠ .faulted →
      s.seq = .idle ∧ ∃ w rest, s.offered = w :: rest ∧
        ((Faulted 1#2 w { s with offered := rest } t ∧ IllegalWord w) ∨
         (Faulted 2#2 w { s with offered := rest } t ∧ ¬ IllegalWord w ∧ s.bus = none ∧ fieldOP w ≠ 0x01#8))) ∧
    (t.seq ≠ .faulted → t.faultCode = s.faultCode ∧ t.faultWord = s.faultWord)

/-- While FAULTED nothing is accepted and nothing changes, for any number of steps; only reset leaves it. Formalises
R158. -/
def Obligations.FaultedBlockDoesNothingUntilReset : Prop :=
  ∀ s : State, s.seq = .faulted →
    (∀ n, Host.Core.run Sys2Proof.core n s = .next s) ∧ (∀ i, exec i s = .next s) ∧
    (∀ w, (s.offer w).seq = .faulted ∧ Host.Core.run Sys2Proof.core 1 (s.offer w) = .next (s.offer w)) ∧
    (∀ r, s.completeTransfer r = s) ∧ s.observe.isSome = true ∧ s.hostReset.seq = .idle

/-- While its transfer is not answered a BUSY block stays as it is, for any number of steps. Derived from 20_memory.md
R58, 60_exceptions.md R163. That a hang is a step to the same state is log entry 2. -/
def Obligations.UnansweredTransferHangs : Prop :=
  ∀ (n : Nat) (s : State) (cmd : Instr) (p : Progress) (post : List Answer),
    s.seq = .busy cmd p → p.inFlight = true → s.answers = .pending :: post → Host.Core.run Sys2Proof.core n s = .next s

/-- An answer that comes late leads to the same state as one that was there at once. Derived from 20_memory.md R57,
20_memory.md R58, 20_memory.md R62, 10_state.md R34. The schedule of answers as a field of the state is the model's own
(log entry 1). -/
def Obligations.LateAnswerResumesWhereItStopped : Prop :=
  ∀ (i : Instr) (s t : State) (pre post : List Answer) (r : TransferResult),
    s.seq = .idle → (∀ a ∈ pre, a.isPending = false) →
    exec i { s with answers := pre ++ .pending :: post } = .next t → t.seq.isBusy = true →
    step (t.completeTransfer r) = exec i { s with answers := pre ++ r.answer :: post }

/-- Whether a transfer completes with ok or fail makes no difference to the block. Derived from 20_memory.md R58,
45_page_serializer.md R147. -/
def Obligations.TransferResultsAreIgnored : Prop :=
  ∀ (s t : State) (bs : List Answer), s.answers.map Answer.isPending = bs.map Answer.isPending → step s = .next t →
    ∃ cs, step { s with answers := bs } = .next { t with answers := cs } ∧
      t.answers.map Answer.isPending = cs.map Answer.isPending

/-- A command whose transfer number n is not answered has issued its transfers up to number n and waits BUSY there.
Derived from 20_memory.md R57, 20_memory.md R58, 20_memory.md R62, 70_reset_and_hazards.md R189,
93_implementation_defined.md I8. The completed command is exec with the empty list of answers, past whose end a transfer
is answered ok, and one exec runs up to the waiting transfer (log entries 1 and 4). The number of transfers of
SET_BORDER and DISPLAY_MESSAGE rests on the default of CLEAR_IN_COMPOSITION_UPDATES (log entry 8). -/
def Obligations.CommandWaitsAtItsUnansweredTransfer : Prop :=
  ∀ (i : Instr) (s : State) (pre post : List Answer),
    s.seq = .idle → (s.bus.isSome = true ∨ ∃ h, i = .init h) →
    s.answers = pre ++ .pending :: post → (∀ a ∈ pre, a.isPending = false) → pre.length < transfersOf i →
    ∃ t u pos, exec i s = .next t ∧ exec i { s with answers := [] } = .next u ∧
      t.seq = .busy i { pos := pos, inFlight := true } ∧ t.log = u.log.take (s.log.length + pre.length + 1) ∧
      t.bus = u.bus ∧ t.answers = .pending :: post ∧ t.faultCode = s.faultCode ∧ t.faultWord = s.faultWord ∧
      t.offered = s.offered

/-- Each command issues exactly the transfers, bytes and full updates of the cost table. Derived from
70_reset_and_hazards.md R189, 30_encoding.md R91, 45_page_serializer.md R143, 93_implementation_defined.md I8. The rows
of SET_BORDER and DISPLAY_MESSAGE rest on the default of CLEAR_IN_COMPOSITION_UPDATES (log entry 8). -/
def Obligations.TransferCostTable : Prop :=
  (∀ (i : Instr) (s : State), s.seq = .idle → (s.bus.isSome = true ∨ ∃ h, i = .init h) → s.Answers (transfersOf i) →
    ∃ t new, exec i s = .next t ∧ t.log = s.log ++ new ∧ new.length = transfersOf i ∧
      (new.map fun tr => tr.bytes.length).sum = busBytesOf i ∧
      (new.filter fun tr => isDataFrame tr.bytes).length = 8 * fullUpdatesOf i) ∧
  (initFrames.filter fun bytes => bytes.length == 2).length = 7 ∧
  (initFrames.filter fun bytes => bytes.length == 3).length = 9 ∧
  (initFrames.map List.length).sum = 41 ∧
  ∀ (bus : Option BusHandle) (m : Memory),
    ((fullUpdate bus m).filter fun tr => !isDataFrame tr.bytes && tr.bytes.length == 2).length = 24 ∧
    ((fullUpdate bus m).filter fun tr => isDataFrame tr.bytes && tr.bytes.length == 129).length = 8 ∧
    ((fullUpdate bus m).map fun tr => tr.bytes.length).sum = 1080

/-- A step only appends to the transfer log; reset empties it. Derived from 20_memory.md R59, 20_memory.md R57. -/
def Obligations.LogOnlyGrowsUntilReset : Prop :=
  (∀ s t : State, step s = .next t → s.log <+: t.log) ∧ ∀ s : State, s.hostReset.log = []

/-- INIT binds the bus, sends the init sequence on it, zeroes the framebuffer and sends it. Derived from
41_init_clear.md R101, 41_init_clear.md R102, 30_encoding.md R91. -/
def Obligations.InitBindsSendsZeroesAndUpdates : Prop :=
  ∀ (h : BusHandle) (s : State), s.seq = .idle → s.Answers 48 →
    ∃ t, exec (.init h) s = .next t ∧ t.bus = some h ∧ (∀ i, t.fb.read i = 0x00#8) ∧
      t.log = s.log ++ (initTransfers (some h) ++ fullUpdate (some h) t.fb) ∧ Completed 48 s t

/-- After INIT the framebuffer is all zero and its last eight data frames carried zeros. Formalises R104. -/
def Obligations.AfterInitFramebufferIsZero : Prop :=
  ∀ (h : BusHandle) (s : State), s.seq = .idle → s.Answers 48 →
    ∃ t, exec (.init h) s = .next t ∧ (∀ i, t.fb.read i = 0x00#8) ∧
      ∀ p, p < 8 → t.log[s.log.length + (16 + (4 * p + 3))]? =
        some { bus := some h, addr := 0x3C#7, bytes := 0x40#8 :: List.replicate 128 0x00#8 }

/-- All transfers of INIT go out on the new bus; an INIT that hangs has bound it already. Formalises R103. -/
def Obligations.InitBindsBusBeforeItsFirstTransfer : Prop :=
  ∀ (h : BusHandle) (s : State), s.seq = .idle →
    (s.Answers 48 → ∃ t new, exec (.init h) s = .next t ∧ t.log = s.log ++ new ∧ new.length = 48 ∧
      ∀ tr ∈ new, tr.bus = some h) ∧
    ∀ pre post, s.answers = pre ++ .pending :: post → (∀ a ∈ pre, a.isPending = false) → pre.length < 48 →
      ∃ t p new, exec (.init h) s = .next t ∧ t.bus = some h ∧ t.seq = .busy (.init h) p ∧
        t.log = s.log ++ new ∧ new.length = pre.length + 1 ∧ (∀ tr ∈ new, tr.bus = some h) ∧
        ∀ n, Host.Core.run Sys2Proof.core n t = .next t

/-- BUS is NONE at reset, only INIT writes it, and no command clears it. Formalises R33. -/
def Obligations.OnlyInitWritesTheBus : Prop :=
  State.reset.bus = none ∧ (∀ s : State, s.initDone = true ↔ s.bus ≠ none) ∧
  (∀ (i : Instr) (s t : State), exec i s = .next t → t.bus = s.bus ∨ ∃ h, i = .init h ∧ t.bus = some h) ∧
  ∀ (h : BusHandle) (s : State), s.seq = .idle → ∃ t, exec (.init h) s = .next t ∧ t.bus = some h

/-- CLEAR zeroes every byte and sends one full update of the zero framebuffer. Derived from 41_init_clear.md R105,
41_init_clear.md R106, 41_init_clear.md R107. -/
def Obligations.ClearZeroesAndSends : Prop :=
  ∀ s : State, s.Ready → s.Answers 32 →
    ∃ t, exec .clear s = .next t ∧ (∀ i, t.fb.read i = 0x00#8) ∧ t.log = s.log ++ fullUpdate s.bus t.fb ∧
      t.bus = s.bus ∧ Completed 32 s t

/-- Two CLEARs leave the framebuffer of one, but log 64 transfers instead of 32. Formalises R108. -/
def Obligations.ClearTwiceIsClearOnce : Prop :=
  ∀ s : State, s.Ready → s.Answers 64 →
    ∃ t u, exec .clear s = .next t ∧ exec .clear t = .next u ∧ u.fb = t.fb ∧
      t.log.length = s.log.length + 32 ∧ u.log.length = s.log.length + 64

/-- Zeroing the framebuffer in one step is the loop of 1024 one-byte writes of 0x00. Derived from 41_init_clear.md R105,
20_memory.md R54. On a framebuffer in canonical form, writing 0x00 to the bytes 0 to 1023 one after the other gives the
zero framebuffer the model assigns at once (log entry 13). -/
def Obligations.ZeroingIsTheByteLoop : Prop :=
  ∀ m : Memory, m.wf = true →
    (List.finRange Config.fbBytes).foldl (fun m i => m.write i 0x00#8) m = Memory.zero

/-- In-bounds pixels and (byte, bit) pairs correspond one to one. Formalises R50. -/
def Obligations.PixelMapIsABijection : Prop :=
  (∀ (i : FbIndex) (k : Nat), k < 8 → ∀ (x : Fin Config.width) (y : Fin Config.height),
    (pixelIndex x y = i ∧ pixelBit y.val = k) ↔ (x.val = i.val % 128 ∧ y.val = i.val / 128 * 8 + k)) ∧
  (∀ (i : FbIndex) (k : Nat), k < 8 → i.val % 128 < 128 ∧ i.val / 128 * 8 + k < 64) ∧
  ∀ (x y : Nat) (on : Bool) (m : Memory), ¬ InBounds x y → m.pixelWrite x y on = m

/-- DRAW_PIXEL of an in-bounds pixel sets or clears its one bit and changes no other byte. Derived from
42_pixel_writer.md R111, 42_pixel_writer.md R113, 20_memory.md R49. -/
def Obligations.DrawPixelWritesOneBit : Prop :=
  ∀ (x y : Nat) (color : Byte) (s : State), x < 128 → y < 64 → s.Ready → s.fb.wf = true →
    ∃ t, exec (.drawPixel x y color) s = .next t ∧
      (∀ i : FbIndex, t.fb.read i =
        if i.val = y / 8 * 128 + x then
          (if color ≠ 0x00#8 then s.fb.read i ||| 1#8 <<< (y % 8) else s.fb.read i &&& ~~~(1#8 <<< (y % 8)))
        else s.fb.read i) ∧
      t.log = s.log ∧ t.bus = s.bus ∧ Completed 0 s t

/-- A pixel out of bounds changes nothing, raises nothing and records nothing. Formalises R112. -/
def Obligations.ClippedPixelChangesNothing : Prop :=
  ∀ (x y : Nat), (128 ≤ x ∨ 64 ≤ y) →
    (∀ (m : Memory) (on : Bool), m.pixelWrite x y on = m) ∧
    ∀ (color : Byte) (s : State), s.Ready → exec (.drawPixel x y color) s = .next s

/-- Every non-zero color has the effect of color 1; only color 0 clears. Formalises R114. -/
def Obligations.AnyNonzeroColorSets : Prop :=
  ∀ (x y : Nat) (s : State), s.Ready →
    (∀ color : Byte, color ≠ 0x00#8 → exec (.drawPixel x y color) s = exec (.drawPixel x y 1#8) s) ∧
    ∀ (hx : x < Config.width) (hy : y < Config.height), s.fb.wf = true →
      (∃ t, exec (.drawPixel x y 1#8) s = .next t ∧ t.fb.pixel ⟨x, hx⟩ ⟨y, hy⟩ = true) ∧
      ∃ t, exec (.drawPixel x y 0x00#8) s = .next t ∧ t.fb.pixel ⟨x, hx⟩ ⟨y, hy⟩ = false

/-- DRAW_PIXEL is idempotent, different pixels commute, and on one pixel the later command wins. Formalises R115. -/
def Obligations.DrawPixelIdempotentAndCommuting : Prop :=
  ∀ (s : State) (x y x' y' : Nat) (c c' : Byte), s.Ready → s.fb.wf = true →
    (∀ (hx : x < Config.width) (hy : y < Config.height), s.fb.pixel ⟨x, hx⟩ ⟨y, hy⟩ = truthy c →
      exec (.drawPixel x y c) s = .next s) ∧
    (∃ t, exec (.drawPixel x y c) s = .next t ∧ exec (.drawPixel x y c) t = .next t) ∧
    ((x, y) ≠ (x', y') → ∃ t u v, exec (.drawPixel x y c) s = .next t ∧ exec (.drawPixel x' y' c') t = .next u ∧
      exec (.drawPixel x' y' c') s = .next v ∧ exec (.drawPixel x y c) v = .next u) ∧
    ∃ t u, exec (.drawPixel x y c) s = .next t ∧ exec (.drawPixel x y c') t = .next u ∧
      exec (.drawPixel x y c') s = .next u

/-- The four corners are in bounds at their bytes and bits; the first values past the edges are no-ops. Formalises R116.
-/
def Obligations.EdgePixels : Prop :=
  ((pixelIndex 0 0).val = 0 ∧ pixelBit 0 = 0) ∧
  ((pixelIndex 127 0).val = 127 ∧ pixelBit 0 = 0) ∧
  ((pixelIndex 0 63).val = 896 ∧ pixelBit 63 = 7) ∧
  ((pixelIndex 127 63).val = 1023 ∧ pixelBit 63 = 7) ∧
  ∀ (s : State) (x y : Nat) (color : Byte), s.Ready →
    exec (.drawPixel 128 y color) s = .next s ∧ exec (.drawPixel x 64 color) s = .next s ∧
    exec (.drawPixel 255 255 color) s = .next s

/-- DRAW_SQUARE sets exactly the in-bounds pixels of its rectangle, bounds exact, and sends one full update. Derived
from 43_shapes.md R119, 43_shapes.md R121, 43_shapes.md R123. -/
def Obligations.DrawSquareFillsTheRectangle : Prop :=
  ∀ (x y width height : Nat) (s : State), s.Ready → s.fb.wf = true → s.Answers 32 →
    ∃ t, exec (.drawSquare x y width height) s = .next t ∧
      (∀ (px : Fin Config.width) (py : Fin Config.height), t.fb.pixel px py =
        (s.fb.pixel px py || decide (x ≤ px.val ∧ px.val < x + width ∧ y ≤ py.val ∧ py.val < y + height))) ∧
      t.log = s.log ++ fullUpdate s.bus t.fb ∧ t.bus = s.bus ∧ Completed 32 s t

/-- An empty or wholly clipped rectangle leaves the framebuffer unchanged and still sends the full update. Formalises
R122. -/
def Obligations.EmptySquareStillUpdates : Prop :=
  ∀ (x y width height : Nat) (s : State), s.Ready → s.Answers 32 → (width = 0 ∨ height = 0 ∨ 128 ≤ x ∨ 64 ≤ y) →
    ∃ t, exec (.drawSquare x y width height) s = .next t ∧ t.fb = s.fb ∧
      t.log = s.log ++ fullUpdate s.bus s.fb ∧ (fullUpdate s.bus s.fb).length = 32

/-- DRAW_SQUARE has the closed form by page masks, and its cells may be visited in any order. Formalises R120. -/
def Obligations.SquareIsItsClosedForm : Prop :=
  ∀ (x y width height : Nat) (s : State), s.Ready → s.fb.wf = true → s.Answers 32 →
    ∃ t, exec (.drawSquare x y width height) s = .next t ∧
      (∀ (p : Fin Config.pages) (c : Fin Config.width), t.fb.read (sliceIndex p c) =
        s.fb.read (sliceIndex p c) ||| rectMask x y width height p.val c.val) ∧
      ∀ cells : List (Nat × Nat), cells.Perm (rectCells x y width height) →
        t.fb = cells.foldl (fun m cell => m.pixelWrite cell.1 cell.2 true) s.fb

/-- DRAW_BORDER solid sets exactly the 380 edge pixels and sends nothing. Formalises R125. -/
def Obligations.SolidBorderPixelsAndBytes : Prop :=
  (∀ s : State, s.Ready → s.fb.wf = true →
    ∃ t, exec (.drawBorder true) s = .next t ∧
      (∀ (px : Fin Config.width) (py : Fin Config.height), t.fb.pixel px py =
        (s.fb.pixel px py || borderPixel true px.val py.val)) ∧
      (∀ (p : Fin Config.pages) (c : Fin Config.width), t.fb.read (sliceIndex p c) =
        s.fb.read (sliceIndex p c) ||| solidMask p.val c.val) ∧
      t.log = s.log ∧ t.bus = s.bus ∧ Completed 0 s t) ∧
  (((List.range 128).flatMap fun x => (List.range 64).map fun y => borderPixel true x y).filter id).length = 380

/-- DRAW_BORDER dotted sets exactly the 191 even-indexed edge pixels and sends nothing. Formalises R126. -/
def Obligations.DottedBorderPixelsAndBytes : Prop :=
  (∀ s : State, s.Ready → s.fb.wf = true →
    ∃ t, exec (.drawBorder false) s = .next t ∧
      (∀ (px : Fin Config.width) (py : Fin Config.height), t.fb.pixel px py =
        (s.fb.pixel px py || borderPixel false px.val py.val)) ∧
      (∀ (p : Fin Config.pages) (c : Fin Config.width), t.fb.read (sliceIndex p c) =
        s.fb.read (sliceIndex p c) ||| dottedMask p.val c.val) ∧
      t.log = s.log ∧ t.bus = s.bus ∧ Completed 0 s t) ∧
  (((List.range 128).flatMap fun x => (List.range 64).map fun y => borderPixel false x y).filter id).length = 191

/-- The corners of the dotted border: (127, 63) stays off; bytes 0, 127, 896, 1023 are 0x55, 0x55, 0xD5, 0x55.
Formalises R127. -/
def Obligations.DottedBorderCorners : Prop :=
  (∀ s : State, s.Ready → s.fb = Memory.zero →
    ∃ t, exec (.drawBorder false) s = .next t ∧
      t.fb.pixel 0 0 = true ∧ t.fb.pixel 127 0 = true ∧ t.fb.pixel 0 63 = true ∧
      t.fb.pixel 127 63 = false ∧
      t.fb.read 0 = 0x55#8 ∧ t.fb.read 127 = 0x55#8 ∧ t.fb.read 896 = 0xD5#8 ∧
      t.fb.read 1023 = 0x55#8) ∧
  (let rows := (loopValues 0 128 2).flatMap fun i => [(i, 0), (i, 63)]
   let columns := (loopValues 0 64 2).flatMap fun j => [(0, j), (127, j)]
   borderCells false = rows ++ columns ∧
   ((0, 0) ∈ rows ∧ (0, 0) ∈ columns) ∧ ((127, 0) ∉ rows ∧ (127, 0) ∈ columns) ∧
   ((0, 63) ∈ rows ∧ (0, 63) ∉ columns) ∧ ((127, 63) ∉ rows ∧ (127, 63) ∉ columns))

/-- DRAW_BORDER clears no bit, and a dotted border over a solid one leaves the solid one. Formalises R128. -/
def Obligations.BorderOnlySetsBits : Prop :=
  ∀ s : State, s.Ready → s.fb.wf = true →
    (∀ solid, ∃ t, exec (.drawBorder solid) s = .next t ∧
      ∀ (px : Fin Config.width) (py : Fin Config.height), s.fb.pixel px py = true → t.fb.pixel px py = true) ∧
    ∃ t, exec (.drawBorder true) s = .next t ∧ exec (.drawBorder false) t = .next t

/-- SET_BORDER leaves exactly the border on a zero background and sends two full updates. Derived from 43_shapes.md
R130, 43_shapes.md R131, 43_shapes.md R132, 93_implementation_defined.md I8. The first of the two updates rests on the
default of CLEAR_IN_COMPOSITION_UPDATES (log entry 8). -/
def Obligations.SetBorderLeavesOnlyTheBorder : Prop :=
  ∀ (solid : Bool) (s : State), s.Ready → s.Answers 64 →
    ∃ t, exec (.setBorder solid) s = .next t ∧
      (∀ (p : Fin Config.pages) (c : Fin Config.width), t.fb.read (sliceIndex p c) = borderMask solid p.val c.val) ∧
      t.log = s.log ++ (fullUpdate s.bus Memory.zero ++ fullUpdate s.bus t.fb) ∧ t.bus = s.bus ∧ Completed 64 s t

/-- The data frames of SET_BORDER's second update carry the border bytes. Derived from 43_shapes.md R133, 43_shapes.md
R130, 93_implementation_defined.md I8. The place of the second update, from transfer 32 on, rests on the default of
CLEAR_IN_COMPOSITION_UPDATES (log entry 8). -/
def Obligations.SetBorderDataFrames : Prop :=
  ∀ (solid : Bool) (s : State), s.Ready → s.Answers 64 →
    ∃ t, exec (.setBorder solid) s = .next t ∧
      ∀ p, p < 8 → t.log[s.log.length + (32 + (4 * p + 3))]? =
        some { bus := s.bus, addr := 0x3C#7, bytes := borderDataFrame solid p }

/-- SET_BORDER is idempotent on the framebuffer. Formalises R134. -/
def Obligations.SetBorderTwiceIsSetBorderOnce : Prop :=
  ∀ (solid : Bool) (s : State), s.Ready → s.Answers 128 →
    ∃ t u, exec (.setBorder solid) s = .next t ∧ exec (.setBorder solid) t = .next u ∧ u.fb = t.fb

/-- DRAW_STRING draws no pixel and sends one full update, whatever x, y and n. Formalises R137. -/
def Obligations.DrawStringOnlyUpdates : Prop :=
  ∀ (x y n : Nat) (s : State), s.Ready → s.Answers 32 →
    ∃ t, exec (.drawString x y n) s = .next t ∧ t.fb = s.fb ∧ t.log = s.log ++ fullUpdate s.bus s.fb ∧
      t.bus = s.bus ∧ Completed 32 s t

/-- DISPLAY_MESSAGE zeroes the framebuffer and sends three full updates of it. Derived from 44_text_stubs.md R139,
44_text_stubs.md R140, 44_text_stubs.md R141, 93_implementation_defined.md I8. The first of the three rests on the
default of CLEAR_IN_COMPOSITION_UPDATES (log entry 8). -/
def Obligations.DisplayMessageClearsAndSendsThreeTimes : Prop :=
  ∀ (n : Nat) (s : State), s.Ready → s.Answers 96 →
    ∃ t, exec (.displayMessage n) s = .next t ∧ (∀ i, t.fb.read i = 0x00#8) ∧
      t.log = s.log ++ (fullUpdate s.bus t.fb ++ (fullUpdate s.bus t.fb ++ fullUpdate s.bus t.fb)) ∧
      t.bus = s.bus ∧ Completed 96 s t

/-- Two DISPLAY_MESSAGE commands with different lengths have identical effects. Formalises R142. -/
def Obligations.MessageLengthNeverMatters : Prop :=
  ∀ (n m : Nat) (s : State), s.Ready →
    (s.Answers 96 → exec (.displayMessage n) s = exec (.displayMessage m) s) ∧
    ∃ t u, exec (.displayMessage n) s = .next t ∧ exec (.displayMessage m) s = .next u ∧
      t.fb = u.fb ∧ t.bus = u.bus ∧ t.log = u.log

/-- SET_BORDER is CLEAR; DRAW_BORDER; UPDATE and DISPLAY_MESSAGE is CLEAR; DRAW_STRING 0, 0, n; UPDATE. Derived from
30_encoding.md R82, 43_shapes.md R130, 44_text_stubs.md R139, 93_implementation_defined.md I8. It rests on the default
of CLEAR_IN_COMPOSITION_UPDATES (log entry 8). -/
def Obligations.CompositionsEqualTheirParts : Prop :=
  (∀ (solid : Bool) (s : State), s.Ready → s.Answers 64 →
    ∃ a b c, exec .clear s = .next a ∧ exec (.drawBorder solid) a = .next b ∧ exec .update b = .next c ∧
      exec (.setBorder solid) s = .next c) ∧
  ∀ (n : Nat) (s : State), s.Ready → s.Answers 96 →
    ∃ a b c, exec .clear s = .next a ∧ exec (.drawString 0 0 n) a = .next b ∧ exec .update b = .next c ∧
      exec (.displayMessage n) s = .next c

/-- UPDATE sends 32 transfers, each page's triple followed by its data frame, as the index table says. Formalises R144.
-/
def Obligations.UpdateSendsThePagesInterleaved : Prop :=
  ∀ s : State, s.Ready → s.Answers 32 →
    ∃ t, exec .update s = .next t ∧ t.fb = s.fb ∧ t.log.length = s.log.length + 32 ∧ s.log <+: t.log ∧
      (∀ k, k < 32 → t.log[s.log.length + k]? =
        some { bus := s.bus, addr := 0x3C#7, bytes := updateFrame s.fb k }) ∧
      t.bus = s.bus ∧ Completed 32 s t

/-- An UPDATE whose transfer never completes stays BUSY and never issues the later transfers. Derived from
45_page_serializer.md R148, 20_memory.md R58. The number at which the progress stands is the model's numbering (log
entry 12), and the hang as a step to the same state is its form of a wait (log entry 2). -/
def Obligations.UpdateHangsAtItsUnansweredTransfer : Prop :=
  ∀ (s : State) (pre post : List Answer), s.Ready → s.answers = pre ++ .pending :: post →
    (∀ a ∈ pre, a.isPending = false) → pre.length < 32 →
    ∃ t, exec .update s = .next t ∧ t.seq = .busy .update { pos := pre.length, inFlight := true } ∧
      t.log = s.log ++ (fullUpdate s.bus s.fb).take (pre.length + 1) ∧ t.fb = s.fb ∧
      ∀ n, Host.Core.run Sys2Proof.core n t = .next t

/-- Two UPDATEs leave the framebuffer alone and log the same 32 transfers twice. Formalises R149. -/
def Obligations.UpdateTwiceSendsTheSameTwice : Prop :=
  ∀ s : State, s.Ready → s.Answers 64 →
    ∃ t u new, exec .update s = .next t ∧ exec .update t = .next u ∧ u.fb = s.fb ∧ new.length = 32 ∧
      t.log = s.log ++ new ∧ u.log = s.log ++ (new ++ new)

/-- What each command leaves unchanged, whether it completes, waits, faults or is not accepted. Derived from 10_state.md
R30, 10_state.md R33, 10_state.md R35, 10_state.md R44. -/
def Obligations.FrameOfEveryCommand : Prop :=
  ∀ (i : Instr) (s t : State), s.fb.wf = true → exec i s = .next t →
    (∀ (px : Fin Config.width) (py : Fin Config.height),
      mayChange i px.val py.val = false → t.fb.pixel px py = s.fb.pixel px py) ∧
    ((∀ h, i ≠ .init h) → t.bus = s.bus) ∧ t.offered = s.offered ∧
    ((t.seq = .faulted → s.seq = .faulted) → t.faultCode = s.faultCode ∧ t.faultWord = s.faultWord) ∧
    s.log <+: t.log ∧ (transfersOf i = 0 → t.log = s.log ∧ t.answers = s.answers)

/-- STATUS shows BUSY in bit 0, INIT_DONE in bit 1, FAULT_CODE in bits 3:2 and zeros above; it resets to 0x00. Derived
from 10_state.md R36, 10_state.md R33, 10_state.md R35. -/
def Obligations.StatusBits : Prop :=
  (∀ s : State,
    (s.status.getLsbD 0 = true ↔ ∃ cmd p, s.seq = .busy cmd p) ∧ (s.status.getLsbD 1 = true ↔ s.bus ≠ none) ∧
    s.status.extractLsb' 2 2 = s.faultCode ∧ s.status.extractLsb' 4 4 = 0#4) ∧
  State.reset.status = 0x00#8

/-- The host reads FB, STATUS, FAULT_WORD and the log when IDLE or FAULTED, and nothing while BUSY. Derived from
20_memory.md R69, 10_state.md R37, 70_reset_and_hazards.md R188. -/
def Obligations.HostObservesOnlyWhenNotBusy : Prop :=
  ∀ s : State, (s.observe = none ↔ s.seq.isBusy = true) ∧
    (s.seq.isBusy = false → ∃ o, s.observe = some o ∧ o.status = s.status ∧ o.faultWord = s.faultWord ∧ o.log = s.log ∧
      o.fb.length = 1024 ∧ ∀ i : FbIndex, o.fb[i.val]? = some (s.fb.read i))

/-- Reset puts every state element to its reset value, from any state, and then the block waits on the port. Formalises
R177. -/
def Obligations.ResetValues : Prop :=
  (∀ s : State, s = State.reset ∨ (∃ s', s = State.hostReset s') →
    (∀ i, s.fb.read i = 0x00#8) ∧ s.bus = none ∧ s.seq = .idle ∧ s.faultCode = 0#2 ∧ s.faultWord = 0#40 ∧ s.log = []) ∧
  ∀ s : State, s.offered = [] → step s.hostReset = .next s.hostReset

/-- The run invariant holds right after reset. Derived from 10_state.md R45, 70_reset_and_hazards.md R177. -/
def Obligations.RunInvariantAtReset : Prop :=
  State.reset.Inv

/-- Every step keeps the run invariant. Derived from 10_state.md R35, 20_memory.md R57, 20_memory.md R71, 30_encoding.md
R83, 30_encoding.md R94. That a BUSY block always waits for a transfer, at the position its progress numbers, is the
model's choice (log entries 4 and 12). -/
def Obligations.RunInvariantKeptByStep : Prop :=
  ∀ s t : State, s.Inv → step s = .next t → t.Inv

/-- Whatever the host does keeps the run invariant. Derived from 20_memory.md R68, 70_reset_and_hazards.md R182. -/
def Obligations.RunInvariantKeptByHost : Prop :=
  ∀ s : State, s.Inv → (∀ w, (s.offer w).Inv) ∧ (∀ r, (s.completeTransfer r).Inv) ∧ s.hostReset.Inv

/-- Right after reset nothing was sent and no bus is bound. Derived from 70_reset_and_hazards.md R184,
70_reset_and_hazards.md R177. -/
def Obligations.InitSequenceFirstAtReset : Prop :=
  State.reset.InitSequenceFirst

/-- The whole init sequence is on the wire, in order, before any page data. Derived from 70_reset_and_hazards.md R184,
30_encoding.md R92, 41_init_clear.md R101. That the waiting INIT stands at position k + 1 with its transfer in flight is
the model's choice (log entries 4 and 12). -/
def Obligations.InitSequenceFirstKeptByStep : Prop :=
  ∀ s t : State, s.InitSequenceFirst → step s = .next t → t.InitSequenceFirst

/-- A FAULTED port refuses words, and no word standing on it outlives the reset; at any other block a word offered waits
last on the port. Derived from 20_memory.md R67, 60_exceptions.md R158, 92_eei_decisions.md D30. That the reset of a
FAULTED block takes every word off the port, also one offered while BUSY or IDLE that stood behind the faulting word
when the fault was raised, is DEDUCED and not said by the rules (log entry 14). That a reset of a block that is not
FAULTED keeps the words waiting is the model's choice (log entry 14), and a wait as a step to the same state is log
entry 2. -/
def Obligations.WordOfferedWhileFaultedIsNeverAccepted : Prop :=
  (∀ s : State, s.seq = .faulted →
    (∀ w, s.offer w = s) ∧
    ∀ n t, Host.Core.run Sys2Proof.core n s = .next t →
      t.hostReset.offered = [] ∧ ∀ m, Host.Core.run Sys2Proof.core m t.hostReset = .next t.hostReset) ∧
  ∀ (s : State) (w : CommandWord), s.seq ≠ .faulted →
    (s.offer w).offered = s.offered ++ [w] ∧ (s.offer w).seq = s.seq ∧ s.hostReset.offered = s.offered
end

