-- ==== Sys2Proof/Laws/Codec.lean ====
section
/-! SUPPORT. The five fields of a command word: a word is its fields, and masking works field by field. -/

namespace Sys2Proof

/-- The number of command words, as `omega` needs it. -/
@[simp] theorem two_pow_cmdW : 2 ^ Config.cmdW = 1099511627776 := rfl

/-- A command word as a number is below that bound. -/
theorem CommandWord.toNat_lt (w : CommandWord) : w.toNat < 1099511627776 := w.isLt

theorem wordOf_toNat (op a b c d : Byte) :
    (wordOf op a b c d).toNat = (((op.toNat * 256 + a.toNat) * 256 + b.toNat) * 256 + c.toNat) * 256 + d.toNat := by
  rw [wordOf, BitVec.toNat_ofNat, Nat.mod_eq_of_lt]
  rw [two_pow_cmdW]
  omega

theorem field_toNat (w : CommandWord) (k : Nat) : (w.extractLsb' k 8).toNat = w.toNat / 2 ^ k % 256 := by
  simp [BitVec.extractLsb'_toNat, Nat.shiftRight_eq_div_pow]

@[simp] theorem fieldOP_wordOf (op a b c d : Byte) : fieldOP (wordOf op a b c d) = op := by
  apply BitVec.eq_of_toNat_eq; rw [fieldOP, field_toNat, wordOf_toNat]; omega
@[simp] theorem fieldA_wordOf (op a b c d : Byte) : fieldA (wordOf op a b c d) = a := by
  apply BitVec.eq_of_toNat_eq; rw [fieldA, field_toNat, wordOf_toNat]; omega
@[simp] theorem fieldB_wordOf (op a b c d : Byte) : fieldB (wordOf op a b c d) = b := by
  apply BitVec.eq_of_toNat_eq; rw [fieldB, field_toNat, wordOf_toNat]; omega
@[simp] theorem fieldC_wordOf (op a b c d : Byte) : fieldC (wordOf op a b c d) = c := by
  apply BitVec.eq_of_toNat_eq; rw [fieldC, field_toNat, wordOf_toNat]; omega
@[simp] theorem fieldD_wordOf (op a b c d : Byte) : fieldD (wordOf op a b c d) = d := by
  apply BitVec.eq_of_toNat_eq; rw [fieldD, field_toNat, wordOf_toNat]; omega

/-- A word is its five fields (30_encoding.md R74). -/
theorem wordOf_fields (w : CommandWord) : wordOf (fieldOP w) (fieldA w) (fieldB w) (fieldC w) (fieldD w) = w := by
  apply BitVec.eq_of_toNat_eq
  rw [wordOf_toNat, fieldOP, fieldA, fieldB, fieldC, fieldD]
  simp only [field_toNat]
  have := CommandWord.toNat_lt w
  omega

theorem wordOf_inj {op a b c d op' a' b' c' d' : Byte} :
    wordOf op a b c d = wordOf op' a' b' c' d' ↔ op = op' ∧ a = a' ∧ b = b' ∧ c = c' ∧ d = d' := by
  constructor
  · intro h
    exact ⟨by simpa using congrArg fieldOP h, by simpa using congrArg fieldA h, by simpa using congrArg fieldB h,
      by simpa using congrArg fieldC h, by simpa using congrArg fieldD h⟩
  · rintro ⟨rfl, rfl, rfl, rfl, rfl⟩
    rfl

theorem field_and (w v : CommandWord) (k : Nat) : (w &&& v).extractLsb' k 8 = w.extractLsb' k 8 &&& v.extractLsb' k 8 := by
  ext i hi
  simp

theorem fieldOP_and (w v : CommandWord) : fieldOP (w &&& v) = fieldOP w &&& fieldOP v := field_and w v 32
theorem fieldA_and (w v : CommandWord) : fieldA (w &&& v) = fieldA w &&& fieldA v := field_and w v 24
theorem fieldB_and (w v : CommandWord) : fieldB (w &&& v) = fieldB w &&& fieldB v := field_and w v 16
theorem fieldC_and (w v : CommandWord) : fieldC (w &&& v) = fieldC w &&& fieldC v := field_and w v 8
theorem fieldD_and (w v : CommandWord) : fieldD (w &&& v) = fieldD w &&& fieldD v := field_and w v 0

/-- Masking a word masks each field. -/
theorem wordOf_and (op a b c d op' a' b' c' d' : Byte) : wordOf op a b c d &&& wordOf op' a' b' c' d' =
    wordOf (op &&& op') (a &&& a') (b &&& b') (c &&& c') (d &&& d') := by
  rw [← wordOf_fields (wordOf op a b c d &&& wordOf op' a' b' c' d')]
  simp only [fieldOP_and, fieldA_and, fieldB_and, fieldC_and, fieldD_and, fieldOP_wordOf, fieldA_wordOf, fieldB_wordOf,
    fieldC_wordOf, fieldD_wordOf]

theorem and_ones (a : Byte) : a &&& 0xFF#8 = a := BitVec.and_allOnes

theorem and_zeros (a : Byte) : a &&& 0x00#8 = 0x00#8 := BitVec.and_zero

/-- Every command's word decodes by its own fields. -/
theorem decode_wordOf (op a b c d : Byte) : decode (wordOf op a b c d) = decodeFields op a b c d := by simp [decode]

end Sys2Proof
end

