-- ==== Sys2Proof/Laws/Memory.lean ====
section
/-! SUPPORT. The laws of the framebuffer's list: read after write, the canonical form, and what `PixelWrite` does to a byte. -/

namespace Sys2Proof.Machine.Memory

@[simp] theorem lookup_nil (i : Nat) : lookup [] i = 0#8 := rfl

@[simp] theorem lookup_cons (a : Nat) (v : Byte) (rest : Memory) (i : Nat) :
    lookup ((a, v) :: rest) i = if i = a then v else lookup rest i := rfl

@[simp] theorem wfFrom_nil (lo : Nat) : wfFrom lo [] = true := rfl

theorem wfFrom_cons (lo a : Nat) (v : Byte) (rest : Memory) :
    wfFrom lo ((a, v) :: rest) = true ↔ lo ≤ a ∧ a < 1024 ∧ v ≠ 0#8 ∧ wfFrom (a + 1) rest = true := by
  simp [wfFrom, and_assoc]

theorem wfFrom_mono {lo lo' : Nat} (h : lo' ≤ lo) : ∀ {m : Memory}, wfFrom lo m = true → wfFrom lo' m = true
  | [], _ => rfl
  | (a, v) :: rest, hm => by
    rw [wfFrom_cons] at hm ⊢
    exact ⟨h.trans hm.1, hm.2⟩

/-- An index below every entry reads as the reset byte. -/
theorem lookup_below {lo i : Nat} (h : i < lo) : ∀ {m : Memory}, wfFrom lo m = true → lookup m i = 0#8
  | [], _ => rfl
  | (a, v) :: rest, hm => by
    rw [wfFrom_cons] at hm
    rw [lookup_cons, if_neg (by omega)]
    exact lookup_below (by omega) hm.2.2.2

/-- Every byte past the end of the framebuffer reads as the reset byte. -/
theorem lookup_above {i : Nat} (h : 1024 ≤ i) : ∀ {lo : Nat} {m : Memory}, wfFrom lo m = true → lookup m i = 0#8
  | _, [], _ => rfl
  | lo, (a, v) :: rest, hm => by
    rw [wfFrom_cons] at hm
    rw [lookup_cons, if_neg (by omega)]
    exact lookup_above h hm.2.2.2

theorem lookup_consCell (i j : Nat) (v : Byte) (m : Memory) (h : j ≠ i) : lookup (consCell i v m) j = lookup m j := by
  unfold consCell; split
  · rfl
  · rw [lookup_cons, if_neg h]

theorem lookup_consCell_self {i : Nat} {v : Byte} {m : Memory} (h : lookup m i = 0#8) : lookup (consCell i v m) i = v := by
  unfold consCell; split
  · next hv => rw [h, hv]
  · rw [lookup_cons, if_pos rfl]

/-- A write leaves every other byte alone. -/
theorem lookup_store_other {i j : Nat} (h : j ≠ i) (v : Byte) : ∀ m : Memory, lookup (store m i v) j = lookup m j
  | [] => lookup_consCell i j v [] h
  | (a, u) :: rest => by
    unfold store; split
    · exact lookup_consCell i j v _ h
    · split
      · next hi => rw [lookup_consCell i j v _ h, lookup_cons, if_neg (by omega)]
      · rw [lookup_cons, lookup_cons, lookup_store_other h v rest]

/-- Reading the byte just written gives the value written. -/
theorem lookup_store_self (i : Nat) (v : Byte) : ∀ {lo : Nat} {m : Memory}, wfFrom lo m = true → lookup (store m i v) i = v
  | _, [], _ => lookup_consCell_self rfl
  | lo, (a, u) :: rest, hm => by
    rw [wfFrom_cons] at hm
    unfold store; split
    · next hlt =>
      exact lookup_consCell_self (by rw [lookup_cons, if_neg (by omega)]; exact lookup_below (by omega) hm.2.2.2)
    · split
      · exact lookup_consCell_self (lookup_below (by omega) hm.2.2.2)
      · rw [lookup_cons, if_neg (by assumption)]
        exact lookup_store_self i v hm.2.2.2

theorem wfFrom_consCell {lo i : Nat} {v : Byte} {m : Memory} (hlo : lo ≤ i) (hi : i < 1024)
    (hm : wfFrom (i + 1) m = true) : wfFrom lo (consCell i v m) = true := by
  unfold consCell; split
  · exact wfFrom_mono (by omega) hm
  · next hv => exact (wfFrom_cons ..).2 ⟨hlo, hi, hv, hm⟩

/-- A write keeps the canonical form. -/
theorem wfFrom_store {i : Nat} (v : Byte) (hi : i < 1024) :
    ∀ {lo : Nat} {m : Memory}, lo ≤ i → wfFrom lo m = true → wfFrom lo (store m i v) = true
  | lo, [], hlo, _ => wfFrom_consCell hlo hi rfl
  | lo, (a, u) :: rest, hlo, hm => by
    have hm' := (wfFrom_cons ..).1 hm
    unfold store; split
    · next hlt => exact wfFrom_consCell hlo hi ((wfFrom_cons ..).2 ⟨by omega, hm'.2⟩)
    · split
      · next heq => exact wfFrom_consCell hlo hi (heq ▸ hm'.2.2.2)
      · exact (wfFrom_cons ..).2 ⟨hm'.1, hm'.2.1, hm'.2.2.1, wfFrom_store v hi (by omega) hm'.2.2.2⟩

/-- Equal framebuffers are equal lists. -/
theorem ext_of_wfFrom : ∀ {lo : Nat} {m n : Memory}, wfFrom lo m = true → wfFrom lo n = true →
    (∀ i, lookup m i = lookup n i) → m = n
  | _, [], [], _, _, _ => rfl
  | _, [], (a, v) :: rest, _, hn, h => by
    have := h a
    rw [lookup_cons, if_pos rfl] at this
    exact absurd this.symm ((wfFrom_cons ..).1 hn).2.2.1
  | _, (a, v) :: rest, [], hm, _, h => by
    have := h a
    rw [lookup_cons, if_pos rfl] at this
    exact absurd this ((wfFrom_cons ..).1 hm).2.2.1
  | lo, (a, v) :: rest, (b, u) :: rest', hm, hn, h => by
    have hm' := (wfFrom_cons ..).1 hm
    have hn' := (wfFrom_cons ..).1 hn
    have hab : a = b := by
      rcases lt_trichotomy a b with hlt | heq | hgt
      · have ha := h a
        rw [lookup_cons, if_pos rfl, lookup_cons, if_neg (by omega), lookup_below (by omega) hn'.2.2.2] at ha
        exact absurd ha hm'.2.2.1
      · exact heq
      · have hb := h b
        rw [lookup_cons, if_neg (by omega), lookup_below (by omega) hm'.2.2.2, lookup_cons, if_pos rfl] at hb
        exact absurd hb.symm hn'.2.2.1
    subst hab
    have hvu : v = u := by simpa using h a
    subst hvu
    have hrest : rest = rest' := ext_of_wfFrom hm'.2.2.2 hn'.2.2.2 fun i => by
      by_cases hi : i = a
      · rw [hi, lookup_below (by omega) hm'.2.2.2, lookup_below (by omega) hn'.2.2.2]
      · simpa [hi] using h i
    rw [hrest]

/-! ### The one-byte accesses -/

@[simp] theorem read_nil (i : FbIndex) : read [] i = 0#8 := rfl

@[simp] theorem read_zero (i : FbIndex) : read zero i = 0#8 := rfl

@[simp] theorem wf_nil : wf [] = true := rfl

@[simp] theorem wf_zero : wf zero = true := rfl

theorem read_write_self {m : Memory} (hm : m.wf = true) (i : FbIndex) (v : Byte) : (m.write i v).read i = v :=
  lookup_store_self i.val v hm

theorem read_write_other {m : Memory} {i j : FbIndex} (h : j ≠ i) (v : Byte) : (m.write i v).read j = m.read j :=
  lookup_store_other (fun hv => h (Fin.ext hv)) v m

theorem read_write {m : Memory} (hm : m.wf = true) (i j : FbIndex) (v : Byte) :
    (m.write i v).read j = if j = i then v else m.read j := by
  split
  · next h => rw [h, read_write_self hm]
  · next h => exact read_write_other h v

theorem wf_write {m : Memory} (hm : m.wf = true) (i : FbIndex) (v : Byte) : (m.write i v).wf = true :=
  wfFrom_store v i.isLt (Nat.zero_le _) hm

theorem eq_of_read {m n : Memory} (hm : m.wf = true) (hn : n.wf = true) (h : ∀ i : FbIndex, m.read i = n.read i) : m = n :=
  ext_of_wfFrom hm hn fun i => by
    by_cases hi : i < 1024
    · exact h ⟨i, hi⟩
    · rw [lookup_above (by omega) hm, lookup_above (by omega) hn]

/-! ### `PixelWrite` -/

theorem wf_pixelWrite {m : Memory} (hm : m.wf = true) (x y : Nat) (on : Bool) : (m.pixelWrite x y on).wf = true := by
  unfold pixelWrite; split
  · exact wf_write hm _ _
  · exact hm

/-- A clipped pixel changes nothing (42_pixel_writer.md R112). -/
theorem pixelWrite_out {x y : Nat} (h : ¬ InBounds x y) (m : Memory) (on : Bool) : m.pixelWrite x y on = m := dif_neg h

theorem pixelWrite_in {x y : Nat} (h : InBounds x y) (m : Memory) (on : Bool) :
    m.pixelWrite x y on = m.write (pixelIndex ⟨x, h.1⟩ ⟨y, h.2⟩)
      (if on then m.read (pixelIndex ⟨x, h.1⟩ ⟨y, h.2⟩) ||| pixelMask y
        else m.read (pixelIndex ⟨x, h.1⟩ ⟨y, h.2⟩) &&& ~~~pixelMask y) := dif_pos h

/-- The mask of a row is its one bit. -/
theorem getLsbD_pixelMask (y k : Nat) : (pixelMask y).getLsbD k = decide (k = y % 8) := by
  have hb : y % 8 < 8 := Nat.mod_lt _ (by decide)
  rw [pixelMask, pixelBit, BitVec.getLsbD_shiftLeft, BitVec.getLsbD_one, Bool.eq_iff_iff]
  simp only [Bool.and_eq_true, decide_eq_true_eq, Bool.not_eq_true', decide_eq_false_iff_not, Config.pageRows]
  omega

theorem pixelIndex_val (x : Fin Config.width) (y : Fin Config.height) : (pixelIndex x y).val = y.val / 8 * 128 + x.val := rfl

/-- In-bounds pixels and (byte, bit) pairs correspond one to one (20_memory.md R50). -/
theorem pixelIndex_inj {x x' : Fin Config.width} {y y' : Fin Config.height} :
    (pixelIndex x y = pixelIndex x' y' ∧ pixelBit y = pixelBit y') ↔ x = x' ∧ y = y' := by
  constructor
  · rintro ⟨hi, hb⟩
    have hi := congrArg Fin.val hi
    simp only [pixelIndex_val, pixelBit, Config.pageRows] at hi hb
    have := x.isLt; have := x'.isLt
    simp only [Config.width] at *
    exact ⟨Fin.ext (by omega), Fin.ext (by omega)⟩
  · rintro ⟨rfl, rfl⟩
    exact ⟨rfl, rfl⟩

/-- What `PixelWrite` does to each pixel: the one it names takes the value, every other keeps its own (42_pixel_writer.md R111). -/
theorem pixel_pixelWrite {m : Memory} (hm : m.wf = true) (x y : Nat) (on : Bool) (x' : Fin Config.width)
    (y' : Fin Config.height) :
    (m.pixelWrite x y on).pixel x' y' = if x'.val = x ∧ y'.val = y then on else m.pixel x' y' := by
  by_cases h : InBounds x y
  · rw [pixelWrite_in h]
    unfold pixel
    rw [read_write hm]
    have hb : pixelBit y' < 8 := Nat.mod_lt _ (by decide)
    have hinj := @pixelIndex_inj x' ⟨x, h.1⟩ y' ⟨y, h.2⟩
    by_cases hi : pixelIndex x' y' = pixelIndex ⟨x, h.1⟩ ⟨y, h.2⟩
    · rw [if_pos hi, ← hi]
      have hbit : (pixelMask y).getLsbD (pixelBit y') = decide (x'.val = x ∧ y'.val = y) := by
        rw [getLsbD_pixelMask]
        have : (pixelBit y' = y % 8) ↔ (x'.val = x ∧ y'.val = y) := by
          constructor
          · intro hbb
            obtain ⟨h1, h2⟩ := hinj.1 ⟨hi, hbb⟩
            exact ⟨congrArg Fin.val h1, congrArg Fin.val h2⟩
          · rintro ⟨-, h2⟩
            rw [h2]; rfl
        simp [this]
      cases on
      · simp only [Bool.false_eq_true, if_false, BitVec.getLsbD_and, BitVec.getLsbD_not, hbit, hb, decide_true, Bool.true_and]
        by_cases hxy : x'.val = x ∧ y'.val = y <;> simp [hxy]
      · simp only [if_true, BitVec.getLsbD_or, hbit]
        by_cases hxy : x'.val = x ∧ y'.val = y <;> simp [hxy]
    · rw [if_neg hi, if_neg]
      rintro ⟨rfl, rfl⟩
      exact hi rfl
  · rw [pixelWrite_out h, if_neg]
    rintro ⟨rfl, rfl⟩
    exact h ⟨x'.isLt, y'.isLt⟩

end Sys2Proof.Machine.Memory
end

