-- ==== Sys2Proof/Laws/State.lean ====
section
/-! SUPPORT. One lemma per field per named update of the state, true by rfl, so that no later proof unfolds a record update. -/

namespace Sys2Proof.Machine.State

@[simp] theorem issueTransfer_fb (addr : BusAddr) (bytes : List Byte) (s : State) : (s.issueTransfer addr bytes).fb = s.fb := rfl
@[simp] theorem issueTransfer_bus (addr : BusAddr) (bytes : List Byte) (s : State) : (s.issueTransfer addr bytes).bus = s.bus := rfl
@[simp] theorem issueTransfer_seq (addr : BusAddr) (bytes : List Byte) (s : State) : (s.issueTransfer addr bytes).seq = s.seq := rfl
@[simp] theorem issueTransfer_faultCode (addr : BusAddr) (bytes : List Byte) (s : State) : (s.issueTransfer addr bytes).faultCode = s.faultCode := rfl
@[simp] theorem issueTransfer_faultWord (addr : BusAddr) (bytes : List Byte) (s : State) : (s.issueTransfer addr bytes).faultWord = s.faultWord := rfl
@[simp] theorem issueTransfer_log (addr : BusAddr) (bytes : List Byte) (s : State) : (s.issueTransfer addr bytes).log = s.log ++ [{ bus := s.bus, addr := addr, bytes := bytes }] := rfl
@[simp] theorem issueTransfer_offered (addr : BusAddr) (bytes : List Byte) (s : State) : (s.issueTransfer addr bytes).offered = s.offered := rfl
@[simp] theorem issueTransfer_answers (addr : BusAddr) (bytes : List Byte) (s : State) : (s.issueTransfer addr bytes).answers = s.answers := rfl

@[simp] theorem raiseFault_fb (f : BlockFault) (w : CommandWord) (s : State) : (s.raiseFault f w).fb = s.fb := rfl
@[simp] theorem raiseFault_bus (f : BlockFault) (w : CommandWord) (s : State) : (s.raiseFault f w).bus = s.bus := rfl
@[simp] theorem raiseFault_seq (f : BlockFault) (w : CommandWord) (s : State) : (s.raiseFault f w).seq = .faulted := rfl
@[simp] theorem raiseFault_faultCode (f : BlockFault) (w : CommandWord) (s : State) : (s.raiseFault f w).faultCode = f.code := rfl
@[simp] theorem raiseFault_faultWord (f : BlockFault) (w : CommandWord) (s : State) : (s.raiseFault f w).faultWord = w := rfl
@[simp] theorem raiseFault_log (f : BlockFault) (w : CommandWord) (s : State) : (s.raiseFault f w).log = s.log := rfl
@[simp] theorem raiseFault_offered (f : BlockFault) (w : CommandWord) (s : State) : (s.raiseFault f w).offered = s.offered := rfl
@[simp] theorem raiseFault_answers (f : BlockFault) (w : CommandWord) (s : State) : (s.raiseFault f w).answers = s.answers := rfl

@[simp] theorem offer_fb (w : CommandWord) (s : State) : (s.offer w).fb = s.fb := rfl
@[simp] theorem offer_bus (w : CommandWord) (s : State) : (s.offer w).bus = s.bus := rfl
@[simp] theorem offer_seq (w : CommandWord) (s : State) : (s.offer w).seq = s.seq := rfl
@[simp] theorem offer_faultCode (w : CommandWord) (s : State) : (s.offer w).faultCode = s.faultCode := rfl
@[simp] theorem offer_faultWord (w : CommandWord) (s : State) : (s.offer w).faultWord = s.faultWord := rfl
@[simp] theorem offer_log (w : CommandWord) (s : State) : (s.offer w).log = s.log := rfl
@[simp] theorem offer_offered (w : CommandWord) (s : State) : (s.offer w).offered =
    if s.seq.isFaulted then s.offered else s.offered ++ [w] := rfl
@[simp] theorem offer_answers (w : CommandWord) (s : State) : (s.offer w).answers = s.answers := rfl

/-- A faulted port refuses the word. -/
theorem offer_faulted {s : State} (h : s.seq = .faulted) (w : CommandWord) : s.offer w = s := by
  rw [State.offer, if_pos (by rw [h]; rfl)]

/-- Any other port queues it. -/
theorem offer_not_faulted {s : State} (h : s.seq ≠ .faulted) (w : CommandWord) :
    s.offer w = { s with offered := s.offered ++ [w] } := by
  cases hs : s.seq <;> simp_all [State.offer, Seq.isFaulted]

theorem offeredAfterReset_faulted {s : State} (h : s.seq = .faulted) : s.offeredAfterReset = [] := by
  simp [State.offeredAfterReset, h, Seq.isFaulted]

theorem offeredAfterReset_not_faulted {s : State} (h : s.seq ≠ .faulted) : s.offeredAfterReset = s.offered := by
  cases hs : s.seq <;> simp_all [State.offeredAfterReset, Seq.isFaulted]

@[simp] theorem hostReset_fb (s : State) : s.hostReset.fb = [] := rfl
@[simp] theorem hostReset_bus (s : State) : s.hostReset.bus = none := rfl
@[simp] theorem hostReset_seq (s : State) : s.hostReset.seq = .idle := rfl
@[simp] theorem hostReset_faultCode (s : State) : s.hostReset.faultCode = 0#2 := rfl
@[simp] theorem hostReset_faultWord (s : State) : s.hostReset.faultWord = 0#40 := rfl
@[simp] theorem hostReset_log (s : State) : s.hostReset.log = [] := rfl
@[simp] theorem hostReset_offered (s : State) : s.hostReset.offered = s.offeredAfterReset := rfl
@[simp] theorem hostReset_answers (s : State) : s.hostReset.answers = s.answersAfterReset := rfl

@[simp] theorem reset_fb : State.reset.fb = [] := rfl
@[simp] theorem reset_bus : State.reset.bus = none := rfl
@[simp] theorem reset_seq : State.reset.seq = .idle := rfl
@[simp] theorem reset_faultCode : State.reset.faultCode = 0#2 := rfl
@[simp] theorem reset_faultWord : State.reset.faultWord = 0#40 := rfl
@[simp] theorem reset_log : State.reset.log = [] := rfl
@[simp] theorem reset_offered : State.reset.offered = [] := rfl
@[simp] theorem reset_answers : State.reset.answers = [] := rfl

end Sys2Proof.Machine.State
end

