-- ==== Sys2Proof/Laws/Run.lean ====
section
/-! SUPPORT. What running a command's pseudocode can do: it ends with every step's effect, or it waits at the first transfer with no
answer. Later proofs cite `runSteps_done`, `runSteps_wait` and `exec_eq_accept` and unfold neither `runSteps` nor the meanings. -/

namespace Sys2Proof.Machine

/-- The effect of a list of pseudocode steps, each transfer counted by its issue event. -/
def applyAll (steps : List Action) (s : State) : State := steps.foldl (fun s a => a.apply s) s

/-- How many transfers the steps hold. -/
def transferCount (steps : List Action) : Nat := steps.countP Action.isTransfer

@[simp] theorem applyAll_nil (s : State) : applyAll [] s = s := rfl

@[simp] theorem applyAll_cons (a : Action) (steps : List Action) (s : State) :
    applyAll (a :: steps) s = applyAll steps (a.apply s) := rfl

theorem applyAll_append (l₁ l₂ : List Action) (s : State) : applyAll (l₁ ++ l₂) s = applyAll l₂ (applyAll l₁ s) :=
  List.foldl_append

/-! ### One step's effect leaves the sequencer, the fault record and the inputs alone -/

@[simp] theorem Action.apply_seq (a : Action) (s : State) : (a.apply s).seq = s.seq := by cases a <;> rfl
@[simp] theorem Action.apply_faultCode (a : Action) (s : State) : (a.apply s).faultCode = s.faultCode := by cases a <;> rfl
@[simp] theorem Action.apply_faultWord (a : Action) (s : State) : (a.apply s).faultWord = s.faultWord := by cases a <;> rfl
@[simp] theorem Action.apply_offered (a : Action) (s : State) : (a.apply s).offered = s.offered := by cases a <;> rfl
@[simp] theorem Action.apply_answers (a : Action) (s : State) : (a.apply s).answers = s.answers := by cases a <;> rfl

theorem Action.apply_setAnswers (a : Action) (s : State) (as : List Answer) :
    a.apply { s with answers := as } = { a.apply s with answers := as } := by cases a <;> rfl

theorem Action.apply_setSeq (a : Action) (s : State) (q : Seq) : a.apply { s with seq := q } = { a.apply s with seq := q } := by
  cases a <;> rfl

@[simp] theorem applyAll_seq (l : List Action) (s : State) : (applyAll l s).seq = s.seq := by
  induction l generalizing s <;> simp_all
@[simp] theorem applyAll_faultCode (l : List Action) (s : State) : (applyAll l s).faultCode = s.faultCode := by
  induction l generalizing s <;> simp_all
@[simp] theorem applyAll_faultWord (l : List Action) (s : State) : (applyAll l s).faultWord = s.faultWord := by
  induction l generalizing s <;> simp_all
@[simp] theorem applyAll_offered (l : List Action) (s : State) : (applyAll l s).offered = s.offered := by
  induction l generalizing s <;> simp_all
@[simp] theorem applyAll_answers (l : List Action) (s : State) : (applyAll l s).answers = s.answers := by
  induction l generalizing s <;> simp_all

theorem applyAll_setAnswers (l : List Action) (s : State) (as : List Answer) :
    applyAll l { s with answers := as } = { applyAll l s with answers := as } := by
  induction l generalizing s with
  | nil => rfl
  | cons a l ih => rw [applyAll_cons, Action.apply_setAnswers, ih, applyAll_cons]

theorem applyAll_setSeq (l : List Action) (s : State) (q : Seq) : applyAll l { s with seq := q } = { applyAll l s with seq := q } := by
  induction l generalizing s with
  | nil => rfl
  | cons a l ih => rw [applyAll_cons, Action.apply_setSeq, ih, applyAll_cons]

/-! ### Answers -/

theorem takeAnswer_nil {s : State} (h : s.answers = []) : s.takeAnswer = some s := by
  unfold State.takeAnswer; rw [h]

theorem takeAnswer_pending {s : State} {a : Answer} {rest : List Answer} (h : s.answers = a :: rest)
    (ha : a.isPending = true) : s.takeAnswer = none := by
  unfold State.takeAnswer; rw [h]; simp [ha]

theorem takeAnswer_answered {s : State} {a : Answer} {rest : List Answer} (h : s.answers = a :: rest)
    (ha : a.isPending = false) : s.takeAnswer = some { s with answers := rest } := by
  unfold State.takeAnswer; rw [h]; simp [ha]

/-- With the next answer not pending, the transfer completes and at most that answer is gone. -/
theorem takeAnswer_some {s : State} (h : s.Answers 1) : s.takeAnswer = some { s with answers := s.answers.drop 1 } := by
  cases hl : s.answers with
  | nil => rw [takeAnswer_nil hl, List.drop_nil, ← hl]
  | cons a rest => exact takeAnswer_answered hl (h a (by simp [hl]))

theorem answers_mono {s : State} {m n : Nat} (hmn : m ≤ n) (h : s.Answers n) : s.Answers m := fun a ha =>
  h a ((List.take_subset_take_left s.answers hmn) ha)

/-! ### Running the steps -/

@[simp] theorem runSteps_nil (cmd : Instr) (pos : Nat) (s : State) : runSteps cmd [] pos s = { s with seq := .idle } := rfl

theorem runSteps_local {cmd : Instr} {a : Action} (h : a.isTransfer = false) (rest : List Action) (pos : Nat) (s : State) :
    runSteps cmd (a :: rest) pos s = runSteps cmd rest (pos + 1) (a.apply s) := by
  simp [runSteps, h]

theorem runSteps_transfer {cmd : Instr} {a : Action} {s s' : State} (h : a.isTransfer = true)
    (hs : (a.apply s).takeAnswer = some s') (rest : List Action) (pos : Nat) :
    runSteps cmd (a :: rest) pos s = runSteps cmd rest (pos + 1) s' := by
  simp [runSteps, h, hs]

theorem runSteps_hang {cmd : Instr} {a : Action} {s : State} (h : a.isTransfer = true)
    (hs : (a.apply s).takeAnswer = none) (rest : List Action) (pos : Nat) :
    runSteps cmd (a :: rest) pos s = { a.apply s with seq := .busy cmd { pos := pos, inFlight := true } } := by
  simp [runSteps, h, hs]

@[simp] theorem transferCount_nil : transferCount [] = 0 := rfl

theorem transferCount_cons (a : Action) (l : List Action) :
    transferCount (a :: l) = transferCount l + (if a.isTransfer then 1 else 0) := List.countP_cons

theorem transferCount_append (l₁ l₂ : List Action) : transferCount (l₁ ++ l₂) = transferCount l₁ + transferCount l₂ :=
  List.countP_append

/-- With every transfer answered the steps run to the end: each step's effect, the answers taken, `SEQ <- IDLE`. -/
theorem runSteps_done (cmd : Instr) : ∀ (steps : List Action) (pos : Nat) (s : State), s.Answers (transferCount steps) →
    runSteps cmd steps pos s =
      { applyAll steps s with answers := s.answers.drop (transferCount steps), seq := .idle }
  | [], _, s, _ => by simp
  | a :: rest, pos, s, h => by
    rw [transferCount_cons] at h ⊢
    cases ha : a.isTransfer with
    | false =>
      simp only [ha, Bool.false_eq_true, if_false, Nat.add_zero] at h ⊢
      rw [runSteps_local ha, runSteps_done cmd rest _ _ (by simpa [State.Answers] using h)]
      simp
    | true =>
      simp only [ha, if_true] at h ⊢
      have h1 : (a.apply s).Answers 1 := by
        simpa [State.Answers] using answers_mono (Nat.le_add_left 1 _) h
      rw [runSteps_transfer ha (takeAnswer_some h1)]
      have h2 : State.Answers { a.apply s with answers := (a.apply s).answers.drop 1 } (transferCount rest) := by
        intro b hb
        refine h b ?_
        simp only [Action.apply_answers] at hb
        rw [List.take_drop] at hb
        rw [Nat.add_comm]
        exact List.mem_of_mem_drop hb
      rw [runSteps_done cmd rest _ _ h2, applyAll_setAnswers]
      simp [Nat.add_comm]

/-- With the answer number `pre.length` pending and within the steps' transfers, the steps run up to that transfer, issue it and wait
there. -/
theorem runSteps_wait (cmd : Instr) : ∀ (steps : List Action) (pos : Nat) (s : State) (pre post : List Answer),
    s.answers = pre ++ .pending :: post → (∀ a ∈ pre, a.isPending = false) → pre.length < transferCount steps →
    ∃ before a after, steps = before ++ a :: after ∧ a.isTransfer = true ∧ transferCount before = pre.length ∧
      runSteps cmd steps pos s =
        { applyAll (before ++ [a]) s with
          answers := .pending :: post, seq := .busy cmd { pos := pos + before.length, inFlight := true } }
  | [], _, _, _, _, _, _, h => by simp at h
  | a :: rest, pos, s, pre, post, hs, hpre, hlt => by
    rw [transferCount_cons] at hlt
    cases ha : a.isTransfer with
    | false =>
      simp only [ha, Bool.false_eq_true, if_false, Nat.add_zero] at hlt
      obtain ⟨before, b, after, h1, h2, h3, h4⟩ :=
        runSteps_wait cmd rest (pos + 1) (a.apply s) pre post (by simpa using hs) hpre hlt
      refine ⟨a :: before, b, after, by rw [h1]; rfl, h2, by rw [transferCount_cons, ha]; simpa using h3, ?_⟩
      rw [runSteps_local ha, h4]
      simp [Nat.add_assoc, Nat.add_comm 1]
    | true =>
      simp only [ha, if_true] at hlt
      cases pre with
      | nil =>
        refine ⟨[], a, rest, rfl, ha, rfl, ?_⟩
        rw [runSteps_hang ha (takeAnswer_pending (by simpa using hs) rfl)]
        have : (a.apply s).answers = .pending :: post := by simpa using hs
        simp [← this]
      | cons b pre' =>
        have hb : b.isPending = false := hpre b (by simp)
        have hans : (a.apply s).answers = b :: (pre' ++ .pending :: post) := by simpa using hs
        obtain ⟨before, c, after, h1, h2, h3, h4⟩ :=
          runSteps_wait cmd rest (pos + 1) { a.apply s with answers := pre' ++ .pending :: post } pre' post rfl
            (fun d hd => hpre d (by simp [hd])) (by simpa using hlt)
        refine ⟨a :: before, c, after, by rw [h1]; rfl, h2, by rw [transferCount_cons, ha, h3]; simp, ?_⟩
        rw [runSteps_transfer ha (takeAnswer_answered hans hb), h4, applyAll_setAnswers]
        simp [Nat.add_assoc, Nat.add_comm 1]

/-- Either the next `n` answers are given, or one of them is pending and those before it are given. -/
theorem answers_cases (s : State) (n : Nat) : s.Answers n ∨
    ∃ pre post, s.answers = pre ++ .pending :: post ∧ (∀ a ∈ pre, a.isPending = false) ∧ pre.length < n := by
  suffices h : ∀ (l : List Answer) (n : Nat), (∀ a ∈ l.take n, a.isPending = false) ∨
      ∃ pre post, l = pre ++ .pending :: post ∧ (∀ a ∈ pre, a.isPending = false) ∧ pre.length < n from h s.answers n
  intro l
  induction l with
  | nil => intro n; left; simp
  | cons a l ih =>
    intro n
    cases n with
    | zero => left; simp
    | succ n =>
      cases ha : a.isPending with
      | true =>
        right
        refine ⟨[], l, ?_, by simp, by simp⟩
        cases a <;> simp_all [Answer.isPending]
      | false =>
        rcases ih n with h | ⟨pre, post, h1, h2, h3⟩
        · left; simpa [ha] using h
        · right
          exact ⟨a :: pre, post, by rw [h1]; rfl, by simpa [ha] using h2, by simpa using h3⟩

/-! ### The meanings -/

/-- Every meaning is `Accept` of the command's pseudocode. -/
theorem exec_eq_accept (i : Instr) (s : State) : exec i s = acceptCommand i (stepsOf i) s := by cases i <;> rfl

/-- A block that is not `IDLE` accepts nothing. -/
theorem exec_not_idle {i : Instr} {s : State} (h : s.seq ≠ .idle) : exec i s = .next s := by
  rw [exec_eq_accept]
  unfold acceptCommand
  split
  · contradiction
  · rfl
  · rfl

/-- A legal command other than INIT with no bus bound faults (60_exceptions.md R156). -/
theorem exec_not_init {i : Instr} {s : State} (h : s.seq = .idle) (hb : s.bus = none) (hi : isInit i = false) :
    exec i s = .next (s.raiseFault .notInitialized (encode i)) := by
  simp [exec_eq_accept, acceptCommand, h, hi, State.initDone, hb]

/-- A command accepted runs its pseudocode from the start. -/
theorem exec_runs {i : Instr} {s : State} (h : s.seq = .idle) (hb : isInit i = true ∨ s.bus.isSome = true) :
    exec i s = .next (runSteps i (stepsOf i) 0 { s with seq := .busy i .start }) := by
  rcases hb with hb | hb <;> simp [exec_eq_accept, acceptCommand, h, hb, State.initDone]

/-- A command accepted with every transfer answered: its whole effect. -/
theorem exec_done {i : Instr} {s : State} (h : s.seq = .idle) (hb : isInit i = true ∨ s.bus.isSome = true)
    (ha : s.Answers (transferCount (stepsOf i))) :
    exec i s =
      .next { applyAll (stepsOf i) s with answers := s.answers.drop (transferCount (stepsOf i)), seq := .idle } := by
  rw [exec_runs h hb, runSteps_done i _ _ { s with seq := .busy i .start } ha, applyAll_setSeq]

/-- A command accepted with its transfer number `pre.length` not answered: it waits there. -/
theorem exec_wait {i : Instr} {s : State} (h : s.seq = .idle) (hb : isInit i = true ∨ s.bus.isSome = true)
    {pre post : List Answer} (hs : s.answers = pre ++ .pending :: post) (hpre : ∀ a ∈ pre, a.isPending = false)
    (hlt : pre.length < transferCount (stepsOf i)) :
    ∃ before a after, stepsOf i = before ++ a :: after ∧ a.isTransfer = true ∧ transferCount before = pre.length ∧
      exec i s = .next { applyAll (before ++ [a]) s with
        answers := .pending :: post, seq := .busy i { pos := before.length, inFlight := true } } := by
  obtain ⟨before, a, after, h1, h2, h3, h4⟩ := runSteps_wait i (stepsOf i) 0 { s with seq := .busy i .start } pre post hs hpre hlt
  refine ⟨before, a, after, h1, h2, h3, ?_⟩
  rw [exec_runs h hb, h4, applyAll_setSeq, Nat.zero_add]

end Sys2Proof.Machine
end

