-- ==== Sys2Proof/Laws/Effects.lean ====
section
/-! SUPPORT. What each shared procedure does to the state, once: an update appends `U(FB)`, a clear zeroes, cells set their pixels,
text does nothing; and how many transfers each command's pseudocode holds. -/

namespace Sys2Proof.Machine

/-! ### Updates and clears -/

/-- The model's page slice is the table's 128 bytes. -/
theorem pageSlice_eq (m : Memory) (p : Fin Config.pages) :
    m.pageSlice p = (List.range 128).map fun c => m.lookup (p.val * 128 + c) := by
  rw [← List.map_coe_finRange_eq_range (n := 128), List.map_map]; rfl

@[simp] theorem pageSlice_length (m : Memory) (p : Fin Config.pages) : (m.pageSlice p).length = 128 := by
  simp [Memory.pageSlice]

/-- `UpdateProc` appends one full update of the framebuffer and changes nothing else (45_page_serializer.md R143, R144). -/
theorem applyAll_updateProc (s : State) : applyAll updateProc s = { s with log := s.log ++ fullUpdate s.bus s.fb } := by
  have hsteps : updateProc = pageSteps 0 ++ (pageSteps 1 ++ (pageSteps 2 ++ (pageSteps 3 ++ (pageSteps 4 ++ (pageSteps 5 ++
      (pageSteps 6 ++ pageSteps 7)))))) := by decide
  have hU : fullUpdate s.bus s.fb = [0, 1, 2, 3, 4, 5, 6, 7].flatMap fun p => [4 * p, 4 * p + 1, 4 * p + 2, 4 * p + 3].map fun t =>
      { bus := s.bus, addr := 0x3C#7, bytes := updateFrame s.fb t } := rfl
  have hpage : ∀ (p : Fin Config.pages) (t : State), applyAll (pageSteps p) t =
      { t with log := t.log ++ [4 * p.val, 4 * p.val + 1, 4 * p.val + 2, 4 * p.val + 3].map fun k =>
        { bus := t.bus, addr := 0x3C#7, bytes := updateFrame t.fb k } } := by
    intro p t
    have h1 : (4 * p.val) % 4 = 0 := by omega
    have h2 : (4 * p.val + 1) % 4 = 1 := by omega
    have h3 : (4 * p.val + 2) % 4 = 2 := by omega
    have h4 : (4 * p.val + 3) % 4 = 3 := by omega
    have h5 : (4 * p.val) / 4 = p.val := by omega
    have h6 : (4 * p.val + 3) / 4 = p.val := by omega
    have hcmd : pageCmd p = BitVec.ofNat 8 (0xB0 + p.val) := by
      apply BitVec.eq_of_toNat_eq
      simp [pageCmd, Config.pageCmdBase]
    simp [pageSteps, Action.apply, State.issueTransfer, cmdFrame, dataFrame, pageSlice_eq, updateFrame, h1, h2, h3, h4, h5, h6, hcmd]
  rw [hsteps, hU]
  simp only [applyAll_append, hpage]
  simp [Config.pages]

theorem applyAll_initSeqSteps (s : State) : applyAll initSeqSteps s = { s with log := s.log ++ initTransfers s.bus } := by
  simp [initSeqSteps, initSeq, initTransfers, initFrames, Action.apply, State.issueTransfer, cmdFrame]

/-- `ClearProc` zeroes the framebuffer and then sends it (41_init_clear.md R105). -/
theorem applyAll_clearProc (s : State) :
    applyAll clearProc s = { s with fb := Memory.zero, log := s.log ++ fullUpdate s.bus Memory.zero } := by
  rw [clearProc, applyAll_cons, applyAll_updateProc]; rfl

/-- The composition's clear step is `ClearProc` at the default of I8. -/
theorem clearInComposition_eq : clearInComposition = clearProc := rfl

/-- The text loop draws nothing (44_text_stubs.md R135, R138). -/
theorem applyAll_textSteps (x n : Nat) (s : State) : applyAll (textSteps x n) s = s := by
  unfold textSteps
  generalize List.range n = l
  induction l <;> simp_all [Action.apply]

/-! ### Shapes -/

/-- The framebuffer after `PixelWrite(i, j, true)` on each cell. -/
def setPixels (cells : List (Nat × Nat)) (m : Memory) : Memory := cells.foldl (fun m cell => m.pixelWrite cell.1 cell.2 true) m

theorem applyAll_setCells (cells : List (Nat × Nat)) (s : State) :
    applyAll (setCells cells) s = { s with fb := setPixels cells s.fb } := by
  induction cells generalizing s with
  | nil => rfl
  | cons c cells ih => simpa [setCells, setPixels, Action.apply] using ih { s with fb := s.fb.pixelWrite c.1 c.2 true }

theorem wf_setPixels {m : Memory} (hm : m.wf = true) (cells : List (Nat × Nat)) : (setPixels cells m).wf = true := by
  induction cells generalizing m with
  | nil => exact hm
  | cons c cells ih => exact ih (Memory.wf_pixelWrite hm _ _ _)

/-- Setting cells sets their pixels and no other. -/
theorem pixel_setPixels {m : Memory} (hm : m.wf = true) (cells : List (Nat × Nat)) (x : Fin Config.width)
    (y : Fin Config.height) : (setPixels cells m).pixel x y = (decide ((x.val, y.val) ∈ cells) || m.pixel x y) := by
  induction cells generalizing m with
  | nil => simp [setPixels]
  | cons c cells ih =>
    have : setPixels (c :: cells) m = setPixels cells (m.pixelWrite c.1 c.2 true) := rfl
    rw [this, ih (Memory.wf_pixelWrite hm _ _ _), Memory.pixel_pixelWrite hm]
    by_cases h : x.val = c.1 ∧ y.val = c.2
    · simp [h]
    · have : (x.val, y.val) ≠ c := fun hc => h ⟨congrArg Prod.fst hc, congrArg Prod.snd hc⟩
      simp [h, this]

/-- The values of `[a .. b) step k` (00_scope.md R11). -/
theorem mem_loopValues {a b k n : Nat} (hk : 0 < k) : n ∈ loopValues a b k ↔ a ≤ n ∧ n < b ∧ (n - a) % k = 0 := by
  simp only [loopValues, List.mem_range']
  constructor
  · rintro ⟨i, hi, rfl⟩
    have h1 : i * k < b - a := by
      have h2 : (i + 1) * k ≤ b - a + (k - 1) := (Nat.le_div_iff_mul_le hk).1 hi
      rw [Nat.add_mul, Nat.one_mul] at h2
      omega
    rw [Nat.mul_comm] at h1
    refine ⟨by omega, by omega, ?_⟩
    rw [Nat.add_sub_cancel_left, Nat.mul_mod_right]
  · rintro ⟨h1, h2, h3⟩
    refine ⟨(n - a) / k, ?_, ?_⟩
    · apply (Nat.le_div_iff_mul_le hk).2
      have := Nat.div_add_mod (n - a) k
      rw [h3, Nat.add_zero, Nat.mul_comm] at this
      rw [Nat.succ_mul, this]
      omega
    · have := Nat.div_add_mod (n - a) k
      omega

/-- DRAW_SQUARE's cells are the rectangle (43_shapes.md R119, R121). -/
theorem mem_rectCells (x y width height px py : Nat) :
    (px, py) ∈ rectCells x y width height ↔ rectPixel x y width height px py = true := by
  simp only [rectCells, List.mem_flatMap, List.mem_map, mem_loopValues Nat.one_pos, Prod.mk.injEq, rectPixel, decide_eq_true_eq,
    Nat.mod_one]
  constructor
  · rintro ⟨j, ⟨h1, h2, -⟩, i, ⟨h3, h4, -⟩, rfl, rfl⟩
    exact ⟨h3, h4, h1, h2⟩
  · rintro ⟨h1, h2, h3, h4⟩
    exact ⟨py, ⟨h3, h4, trivial⟩, px, ⟨h1, h2, trivial⟩, rfl, rfl⟩

/-- DRAW_BORDER's cells are the border's pixels (43_shapes.md R125, R126). -/
theorem mem_borderCells (solid : Bool) {px py : Nat} (hx : px < 128) (hy : py < 64) :
    (px, py) ∈ borderCells solid ↔ borderPixel solid px py = true := by
  have hk : 0 < borderStep solid := by cases solid <;> decide
  simp only [borderCells, List.mem_append, List.mem_flatMap, mem_loopValues hk, List.mem_cons, List.not_mem_nil, or_false,
    Prod.mk.injEq]
  cases solid <;>
    simp only [borderStep, borderPixel, Bool.false_eq_true, if_false, if_true, Bool.or_eq_true, Bool.and_eq_true, beq_iff_eq,
      Nat.sub_zero, Config.width, Config.height]
  · constructor
    · rintro (⟨i, ⟨-, h1, h2⟩, ⟨rfl, rfl⟩ | ⟨rfl, rfl⟩⟩ | ⟨j, ⟨-, h1, h2⟩, ⟨rfl, rfl⟩ | ⟨rfl, rfl⟩⟩) <;> omega
    · rintro (⟨h1 | h1, h2⟩ | ⟨h1 | h1, h2⟩)
      · exact .inl ⟨px, ⟨by omega, by omega, h2⟩, .inl ⟨rfl, h1⟩⟩
      · exact .inl ⟨px, ⟨by omega, by omega, h2⟩, .inr ⟨rfl, h1⟩⟩
      · exact .inr ⟨py, ⟨by omega, by omega, h2⟩, .inl ⟨h1, rfl⟩⟩
      · exact .inr ⟨py, ⟨by omega, by omega, h2⟩, .inr ⟨h1, rfl⟩⟩
  · constructor
    · rintro (⟨i, ⟨-, h1, h2⟩, ⟨rfl, rfl⟩ | ⟨rfl, rfl⟩⟩ | ⟨j, ⟨-, h1, h2⟩, ⟨rfl, rfl⟩ | ⟨rfl, rfl⟩⟩) <;> omega
    · rintro (((h1 | h1) | h1) | h1)
      · exact .inl ⟨px, ⟨by omega, by omega, Nat.mod_one _⟩, .inl ⟨rfl, h1⟩⟩
      · exact .inl ⟨px, ⟨by omega, by omega, Nat.mod_one _⟩, .inr ⟨rfl, h1⟩⟩
      · exact .inr ⟨py, ⟨by omega, by omega, Nat.mod_one _⟩, .inl ⟨h1, rfl⟩⟩
      · exact .inr ⟨py, ⟨by omega, by omega, Nat.mod_one _⟩, .inr ⟨h1, rfl⟩⟩

/-! ### Each command's whole effect and its number of transfers -/

@[simp] theorem transferCount_updateProc : transferCount updateProc = 32 := by decide

@[simp] theorem transferCount_clearProc : transferCount clearProc = 32 := by decide

@[simp] theorem transferCount_setCells (cells : List (Nat × Nat)) : transferCount (setCells cells) = 0 := by
  induction cells with
  | nil => rfl
  | cons c cells ih => simpa [setCells, transferCount_cons, Action.isTransfer] using ih

@[simp] theorem transferCount_textSteps (x n : Nat) : transferCount (textSteps x n) = 0 := by
  unfold textSteps
  generalize List.range n = l
  induction l with
  | nil => rfl
  | cons c cells ih => simpa [transferCount_cons, Action.isTransfer] using ih

/-- The transfers of each command are the table's (70_reset_and_hazards.md R189). -/
theorem transferCount_stepsOf (i : Instr) : transferCount (stepsOf i) = transfersOf i := by
  cases i <;>
    simp [stepsOf, transfersOf, initSteps, clearSteps, drawPixelSteps, drawSquareSteps, drawBorderSteps, setBorderSteps,
      drawStringSteps, drawStringBody, displayMessageSteps, updateSteps, transferCount_append, clearInComposition_eq,
      transferCount_cons, Action.isTransfer, show transferCount initSeqSteps = 16 from by decide]

theorem applyAll_initSteps (h : BusHandle) (s : State) : applyAll (initSteps h) s =
    { s with bus := some h, fb := Memory.zero, log := s.log ++ initTransfers (some h) ++ fullUpdate (some h) Memory.zero } := by
  rw [initSteps, applyAll_cons, applyAll_append, applyAll_initSeqSteps, applyAll_clearProc]; rfl

theorem applyAll_drawSquareSteps (x y width height : Nat) (s : State) : applyAll (drawSquareSteps x y width height) s =
    { s with fb := setPixels (rectCells x y width height) s.fb,
             log := s.log ++ fullUpdate s.bus (setPixels (rectCells x y width height) s.fb) } := by
  rw [drawSquareSteps, applyAll_append, applyAll_setCells, applyAll_updateProc]

theorem applyAll_drawBorderSteps (solid : Bool) (s : State) : applyAll (drawBorderSteps solid) s =
    { s with fb := setPixels (borderCells solid) s.fb } := applyAll_setCells _ _

theorem applyAll_setBorderSteps (solid : Bool) (s : State) : applyAll (setBorderSteps solid) s =
    { s with fb := setPixels (borderCells solid) Memory.zero,
             log := s.log ++ fullUpdate s.bus Memory.zero ++ fullUpdate s.bus (setPixels (borderCells solid) Memory.zero) } := by
  rw [setBorderSteps, applyAll_append, applyAll_append, clearInComposition_eq, applyAll_clearProc, applyAll_drawBorderSteps,
    applyAll_updateProc]

theorem applyAll_drawStringBody (x y n : Nat) (s : State) :
    applyAll (drawStringBody x y n) s = { s with log := s.log ++ fullUpdate s.bus s.fb } := by
  rw [drawStringBody, applyAll_append, applyAll_textSteps, applyAll_updateProc]

theorem applyAll_displayMessageSteps (n : Nat) (s : State) : applyAll (displayMessageSteps n) s =
    { s with fb := Memory.zero, log := s.log ++ fullUpdate s.bus Memory.zero ++ fullUpdate s.bus Memory.zero ++
                                         fullUpdate s.bus Memory.zero } := by
  rw [displayMessageSteps, applyAll_append, applyAll_append, clearInComposition_eq, applyAll_clearProc, applyAll_drawStringBody,
    applyAll_updateProc]

end Sys2Proof.Machine
end

