-- ==== Sys2Proof/Laws/PerInstr.lean ====
section
/-! SUPPORT. Facts made per command. `TableRow`: a command's word matches the command's own row of spec/opcode_table.json. -/

namespace Sys2Proof.Laws.TableRow

/-- The word of the command has the fixed bits of the command's row (30_encoding.md R77). -/
def Statement (i : Instr) : Prop := (tableRow i).matchesWord (encode i) = true

/-- A word matches a row when, field by field, it has the row's bits. -/
theorem matches_of_fields {op a b c d mop ma mb mc md pop pa pb pc pd : Byte} {name : String} {mask pattern : CommandWord}
    (hmask : mask = wordOf mop ma mb mc md) (hpat : pattern = wordOf pop pa pb pc pd)
    (h : op &&& mop = pop ∧ a &&& ma = pa ∧ b &&& mb = pb ∧ c &&& mc = pc ∧ d &&& md = pd) :
    (OpcodeRow.mk name mask pattern).matchesWord (wordOf op a b c d) = true := by
  simp only [OpcodeRow.matchesWord, beq_iff_eq, hmask, hpat, wordOf_and, wordOf_inj]
  exact h

theorem solidByte_masked (solid : Bool) : solidByte solid &&& 0xFE#8 = 0x00#8 := by cases solid <;> decide

theorem init (h : BusHandle) : Statement (.init h) :=
  matches_of_fields (mop := 0xFF) (ma := 0) (mb := 0xFF) (mc := 0xFF) (md := 0xFF) (pop := 1) (pa := 0) (pb := 0) (pc := 0) (pd := 0)
    (by decide) (by decide) ⟨by decide, and_zeros h, by decide, by decide, by decide⟩

theorem clear : Statement .clear := by unfold Statement; decide

theorem drawPixel (x y : Nat) (color : Byte) : Statement (.drawPixel x y color) :=
  matches_of_fields (mop := 0xFF) (ma := 0) (mb := 0) (mc := 0) (md := 0xFF) (pop := 3) (pa := 0) (pb := 0) (pc := 0) (pd := 0)
    (by decide) (by decide) ⟨by decide, and_zeros _, and_zeros _, and_zeros _, by decide⟩

theorem drawSquare (x y width height : Nat) : Statement (.drawSquare x y width height) :=
  matches_of_fields (mop := 0xFF) (ma := 0) (mb := 0) (mc := 0) (md := 0) (pop := 4) (pa := 0) (pb := 0) (pc := 0) (pd := 0)
    (by decide) (by decide) ⟨by decide, and_zeros _, and_zeros _, and_zeros _, and_zeros _⟩

theorem drawBorder (solid : Bool) : Statement (.drawBorder solid) :=
  matches_of_fields (mop := 0xFF) (ma := 0xFE) (mb := 0xFF) (mc := 0xFF) (md := 0xFF) (pop := 5) (pa := 0) (pb := 0) (pc := 0) (pd := 0)
    (by decide) (by decide) ⟨by decide, solidByte_masked solid, by decide, by decide, by decide⟩

theorem setBorder (solid : Bool) : Statement (.setBorder solid) :=
  matches_of_fields (mop := 0xFF) (ma := 0xFE) (mb := 0xFF) (mc := 0xFF) (md := 0xFF) (pop := 6) (pa := 0) (pb := 0) (pc := 0) (pd := 0)
    (by decide) (by decide) ⟨by decide, solidByte_masked solid, by decide, by decide, by decide⟩

theorem drawString (x y n : Nat) : Statement (.drawString x y n) :=
  matches_of_fields (mop := 0xFF) (ma := 0) (mb := 0) (mc := 0) (md := 0xFF) (pop := 7) (pa := 0) (pb := 0) (pc := 0) (pd := 0)
    (by decide) (by decide) ⟨by decide, and_zeros _, and_zeros _, and_zeros _, by decide⟩

theorem displayMessage (n : Nat) : Statement (.displayMessage n) :=
  matches_of_fields (mop := 0xFF) (ma := 0) (mb := 0xFF) (mc := 0xFF) (md := 0xFF) (pop := 8) (pa := 0) (pb := 0) (pc := 0) (pd := 0)
    (by decide) (by decide) ⟨by decide, and_zeros _, by decide, by decide, by decide⟩

theorem update : Statement .update := by unfold Statement; decide

end Sys2Proof.Laws.TableRow
end

