-- ==== Sys2Proof/Tests/Slice0.lean ====
section
/-! SUPPORT. Own tests: the well-formedness smoke test, decoding of words written out from the encoding tables, one-step tests whose
results are the spec's (95_test_vectors.md, by vector), and one witness for each statement that has hypotheses. -/

namespace Sys2Proof.Tests

open Sys2Proof Sys2Proof.Machine

/-! ### Helpers -/

/-- Initialized as 95_test_vectors.md means it, on bus 0, with an empty log, so that an index counts within the command. -/
def ready : State := { State.reset with bus := some 0#8 }

/-- `ready` with the framebuffer bytes listed. -/
def readyWith (fb : Memory) : State := { ready with fb := fb }

/-- `ready` with exactly `n` answers given, each `fail`; the next transfer after them is not answered. -/
def answered (n : Nat) : State := { ready with answers := List.replicate n .fail ++ [.pending] }

/-- The first `n` answers given, as a list. -/
def given (n : Nat) : List Answer := List.replicate n .ok

/-- One step of the block with the word offered. -/
def afterWord (s : State) (w : CommandWord) : Option State :=
  match step { s with offered := [w] } with
  | .next t => some t
  | .fault _ => none
  | .refused _ => none

/-- A faulted block. -/
def faultedState : State := { ready with seq := .faulted, faultCode := 1#2, faultWord := 0x0A00000000#40 }

/-- An UPDATE that waits for the answer to its transfer 5. -/
def waitingState : State := { ready with seq := .busy .update { pos := 5, inFlight := true }, answers := [.pending] }

/-- The fields most tests look at: framebuffer, `STATUS`, number of transfers. -/
def shown (s : Option State) : Option (Memory × Byte × Nat) := s.map fun t => (t.fb, t.status, t.log.length)

/-- The bytes of transfer `k`. -/
def frameOf (s : Option State) (k : Nat) : Option (List Byte) := s.bind fun t => t.log[k]?.map Transfer.bytes

/-! ### Well-formedness refuses an operand that does not fit its field (30_encoding.md R75) -/

theorem test_wellFormed_drawPixel_x : (Instr.drawPixel 256 0 0#8).wellFormed = false := by decide
theorem test_wellFormed_drawPixel_y : (Instr.drawPixel 0 256 0#8).wellFormed = false := by decide
theorem test_wellFormed_drawSquare_x : (Instr.drawSquare 256 0 0 0).wellFormed = false := by decide
theorem test_wellFormed_drawSquare_y : (Instr.drawSquare 0 256 0 0).wellFormed = false := by decide
theorem test_wellFormed_drawSquare_width : (Instr.drawSquare 0 0 256 0).wellFormed = false := by decide
theorem test_wellFormed_drawSquare_height : (Instr.drawSquare 0 0 0 256).wellFormed = false := by decide
theorem test_wellFormed_drawString_x : (Instr.drawString 256 0 0).wellFormed = false := by decide
theorem test_wellFormed_drawString_y : (Instr.drawString 0 256 0).wellFormed = false := by decide
theorem test_wellFormed_drawString_n : (Instr.drawString 0 0 256).wellFormed = false := by decide
theorem test_wellFormed_displayMessage_n : (Instr.displayMessage 256).wellFormed = false := by decide
theorem test_wellFormed_accepts : (Instr.drawSquare 255 255 255 255).wellFormed = true := by decide

/-! ### Words written out from CMD40 decode to their commands (30_encoding.md R74–R76; V-DEC) -/

theorem test_decode_init : decode 0x0101000000#40 = .ok (.init 1#8) := by decide
theorem test_decode_clear : decode 0x0200000000#40 = .ok .clear := by decide
theorem test_decode_drawPixel : decode 0x030A140180#40 = .error (.reservedNonzero 0x03#8) ∧
    decode 0x030A140100#40 = .ok (.drawPixel 10 20 1#8) := by decide
theorem test_decode_drawSquare : decode 0x040A06030C#40 = .ok (.drawSquare 10 6 3 12) := by decide
theorem test_decode_drawBorder : decode 0x0501000000#40 = .ok (.drawBorder true) ∧
    decode 0x0500000000#40 = .ok (.drawBorder false) := by decide
theorem test_decode_setBorder : decode 0x0601000000#40 = .ok (.setBorder true) ∧
    decode 0x0600000000#40 = .ok (.setBorder false) := by decide
theorem test_decode_drawString : decode 0x07C864FF00#40 = .ok (.drawString 200 100 255) := by decide
theorem test_decode_displayMessage : decode 0x080C000000#40 = .ok (.displayMessage 12) := by decide
theorem test_decode_update : decode 0x0900000000#40 = .ok .update := by decide

/-- The same from the byte sequence `[OP, A, B, C, D]`; four bytes are no command word. -/
theorem test_decodeBytes : decodeBytes [0x04#8, 0x3C#8, 0x1C#8, 0x08#8, 0x09#8] = .ok (.drawSquare 60 28 8 9) ∧
    decodeBytes [0x02#8, 0#8, 0#8, 0#8] = .error (.wrongLength 4) := by decide

/-- Reserved fields and bits (V-DEC-3, 4, 6, 9, 10, 13, 15; R79). -/
theorem test_decode_reserved : decode 0x0100000001#40 = .error (.reservedNonzero 0x01#8) ∧
    decode 0x0200000001#40 = .error (.reservedNonzero 0x02#8) ∧ decode 0x0305090080#40 = .error (.reservedNonzero 0x03#8) ∧
    decode 0x0502000000#40 = .error (.reservedNonzero 0x05#8) ∧ decode 0x0580000000#40 = .error (.reservedNonzero 0x05#8) ∧
    decode 0x0700000501#40 = .error (.reservedNonzero 0x07#8) ∧ decode 0x0800010000#40 = .error (.reservedNonzero 0x08#8) := by
  decide

/-- Unassigned opcodes (V-DEC-17, 18, 19; R78). -/
theorem test_decode_unassigned : decode 0x0000000000#40 = .error (.unassignedOpcode 0x00#8) ∧
    decode 0x0A00000000#40 = .error (.unassignedOpcode 0x0A#8) ∧ decode 0xFF00000000#40 = .error (.unassignedOpcode 0xFF#8) := by
  decide

/-- The words the encoder gives are the vectors' words. -/
theorem test_encode : encode (.drawSquare 60 28 8 8) = 0x043C1C0808#40 ∧ encode (.drawPixel 200 5 0#8) = 0x03C8050000#40 ∧
    encode (.setBorder true) = 0x0601000000#40 := by decide

/-- The table's numbering, and a word placed at reset runs as the first command (V-FLT-9). -/
theorem test_tableWord : decodeTableWord 40 0x0107000000 = some (.init 7#8) ∧ decodeTableWord 40 0x0A00000000 = none ∧
    (State.reset.withFetchWord 40 0x0107000000).offered = [0x0107000000#40] := by decide

/-! ### One step of each command -/

/-- V-INI-1: INIT 7 from reset. -/
theorem test_init_from_reset : shown (afterWord State.reset 0x0107000000#40) = some ([], 0x02#8, 48) ∧
    (afterWord State.reset 0x0107000000#40).bind State.bus = some 7#8 := by decide +kernel
/-- V-SRC-9: frames 0, 13 and 15 of the init sequence, then U(0). -/
theorem test_init_frames : let t := afterWord State.reset 0x0107000000#40
    frameOf t 0 = some [0x00#8, 0xAE#8] ∧ frameOf t 13 = some [0x00#8, 0xA4#8] ∧ frameOf t 15 = some [0x00#8, 0xAF#8] ∧
    frameOf t 16 = some [0x00#8, 0xB0#8] := by decide +kernel
/-- V-CLR-1. -/
theorem test_clear : shown (afterWord (readyWith [(266, 0x10#8)]) 0x0200000000#40) = some ([], 0x02#8, 32) := by decide +kernel
/-- V-DEC-5, conflict C6: byte 266, not 138. -/
theorem test_drawPixel_sets : shown (afterWord ready 0x030A140100#40) = some ([(266, 0x10#8)], 0x02#8, 0) := by decide +kernel
/-- V-PIX-7: only bit 5 is cleared. -/
theorem test_drawPixel_clears : shown (afterWord (readyWith [(3, 0xFF#8)]) 0x0303050000#40) = some ([(3, 0xDF#8)], 0x02#8, 0) := by
  decide +kernel
/-- V-SQ-11: rows 3 to 12 in column 0 cross a page. -/
theorem test_drawSquare_pages : shown (afterWord ready 0x040003010A#40) =
    some ([(0, 0xF8#8), (128, 0x1F#8)], 0x02#8, 32) := by decide +kernel
/-- V-SQ-4, its first and last byte: clipped at the corner. -/
theorem test_drawSquare_clips : (afterWord ready 0x04783C1010#40).map (fun t => (t.fb.length, t.fb.head?, t.fb.getLast?)) =
    some (8, some (1016, 0xF0#8), some (1023, 0xF0#8)) := by decide +kernel
/-- V-SRC-5: the solid style visits every edge cell, both ends of each edge included, and nothing inside. -/
theorem test_drawBorder_solid_cells : (borderCells true).length = 384 ∧ (1, 0) ∈ borderCells true ∧ (127, 63) ∈ borderCells true ∧
    (127, 1) ∈ borderCells true ∧ (1, 1) ∉ borderCells true ∧ (126, 62) ∉ borderCells true := by decide +kernel
/-- V-BRD-3: the corners of the dotted border. -/
theorem test_drawBorder_dotted : (afterWord ready 0x0500000000#40).map (fun t =>
      [0, 1, 2, 127, 896, 898, 1023].map t.fb.lookup) =
    some [0x55#8, 0x00#8, 0x01#8, 0x55#8, 0xD5#8, 0x80#8, 0x55#8] := by decide +kernel
/-- V-SB-2 with the bytes of V-BRD-2: the old pixel is erased, 64 transfers. -/
theorem test_setBorder : (afterWord (readyWith [(266, 0x10#8)]) 0x0600000000#40).map (fun t =>
      ([0, 64, 65, 128, 266, 960, 1023].map t.fb.lookup, t.fb.length, t.log.length)) =
    some ([0x55#8, 0x01#8, 0x00#8, 0x55#8, 0x00#8, 0x80#8, 0x55#8], 142, 64) := by decide +kernel
/-- V-TXT-1. -/
theorem test_drawString : let t := afterWord (readyWith [(266, 0x10#8)]) 0x0700000500#40
    shown t = some ([(266, 0x10#8)], 0x02#8, 32) ∧
      frameOf t 11 = some ([0x40#8] ++ List.replicate 10 0x00#8 ++ [0x10#8] ++ List.replicate 117 0x00#8) := by decide +kernel
/-- V-TXT-4. -/
theorem test_displayMessage : shown (afterWord (readyWith [(0, 0xFF#8)]) 0x080C000000#40) = some ([], 0x02#8, 96) := by
  decide +kernel
/-- V-UPD-5. -/
theorem test_update_last_frame : let t := afterWord (readyWith [(1023, 0x80#8)]) 0x0900000000#40
    shown t = some ([(1023, 0x80#8)], 0x02#8, 32) ∧ frameOf t 31 = some (0x40#8 :: List.replicate 127 0x00#8 ++ [0x80#8]) := by
  decide +kernel
/-- V-UPD-1: the second page's triple follows the first page's data frame. -/
theorem test_update_interleaved : let t := afterWord ready 0x0900000000#40
    [0, 1, 2, 4, 28].map (frameOf t) = [some [0x00#8, 0xB0#8], some [0x00#8, 0x00#8], some [0x00#8, 0x10#8],
      some [0x00#8, 0xB1#8], some [0x00#8, 0xB7#8]] := by decide +kernel

/-! ### Faults and transfers -/

/-- V-FLT-1 and V-FLT-3. -/
theorem test_faults_before_init : (afterWord State.reset 0x0301010100#40).map (fun t => (t.status, t.faultWord)) =
      some (0x08#8, 0x0301010100#40) ∧
    (afterWord State.reset 0x0A00000000#40).map (fun t => (t.status, t.faultWord)) = some (0x04#8, 0x0A00000000#40) := by decide
/-- V-FLT-2: a faulted block takes no word off the port. -/
theorem test_faulted_accepts_nothing : (afterWord faultedState 0x0100000000#40).map (fun t => (t.seq, t.offered)) =
    some (.faulted, [0x0100000000#40]) := by decide
/-- V-FLT-8. -/
theorem test_reset_leaves_fault : faultedState.hostReset = State.reset := by decide
/-- P3, steps 5 and 6: the CLEAR behind the illegal word, and a word offered later, are never accepted, not after a reset either. -/
theorem test_faulted_word_refused :
    (afterWord ready 0x0A00000000#40).map (fun t => (t.offer 0x0200000000#40).offered) = some [] ∧
    ({ faultedState with offered := [0x0200000000#40] } : State).hostReset.offered = [] ∧
    ({ waitingState with offered := [0x0200000000#40] } : State).hostReset.offered = [0x0200000000#40] := by decide
/-- V-XFR-1: a failed transfer changes nothing. -/
theorem test_failed_transfer : shown (afterWord { ready with answers := [.ok, .ok, .ok, .fail] } 0x0900000000#40) =
    some ([], 0x02#8, 32) := by decide +kernel
/-- V-XFR-3: transfers 0 to 5 are logged, then the block waits and shows nothing to the host. -/
theorem test_unanswered_transfer : (afterWord { ready with answers := given 5 ++ [.pending] } 0x0900000000#40).map (fun t =>
      (t.seq, t.log.length, t.observe)) =
    some (.busy .update { pos := 5, inFlight := true }, 6, none) := by decide +kernel
/-- V-XFR-4: the bus is bound before INIT's first transfer. -/
theorem test_init_hang : (afterWord { State.reset with answers := [.pending] } 0x0104000000#40).map (fun t =>
      (t.bus, t.log)) = some (some 4#8, [⟨some 4#8, 0x3C#7, [0x00#8, 0xAE#8]⟩]) := by decide +kernel

/-! ### Witnesses: concrete states and operands that meet the statements' hypotheses -/

theorem witness_DecodeEncodeRoundTrip : (Instr.drawSquare 255 0 255 255).WellFormed := by decide
theorem witness_EncodeDecodeRoundTrip : decode 0x0400FFFFFF#40 = .ok (.drawSquare 0 255 255 255) := by decide
theorem witness_DecodesExactlyTheTableRows : decode 0x0501000000#40 = .ok (.drawBorder true) ∧
    (∃ r ∈ opcodeTable, r.matchesWord 0x0501000000#40 = true) ∧ ∀ r ∈ opcodeTable, r.matchesWord 0x0502000000#40 = false := by
  decide
theorem witness_StepRunsTheDecodedCommand :
    let s := { ready with offered := [0x0900000000#40, 0x0200000000#40] }
    s.seq = .idle ∧ s.offered = 0x0900000000#40 :: [0x0200000000#40] ∧ decode 0x0900000000#40 = .ok .update := by decide
theorem witness_IdleBlockWithNoWordWaits : ready.seq = .idle ∧ ready.offered = [] := by decide
theorem witness_PortAcceptsOnlyWhenIdle : (∃ t, step ready = .next t) ∧ waitingState.seq ≠ .idle ∧ faultedState.seq ≠ .idle :=
  ⟨⟨_, rfl⟩, by decide, by decide⟩

/-- One illegal word for each clause of `IllegalWord`, at the edges of its ranges. -/
theorem witness_IllegalWordRaisesIllegalCommand :
    ready.seq = .idle ∧ ({ ready with offered := [0x0A00000000#40] } : State).offered = 0x0A00000000#40 :: [] ∧
    IllegalWord 0x0000000000#40 ∧ IllegalWord 0x0A00000000#40 ∧ IllegalWord 0xFFFFFFFFFF#40 ∧ IllegalWord 0x0100000001#40 ∧
    IllegalWord 0x0800010000#40 ∧ IllegalWord 0x0201000000#40 ∧ IllegalWord 0x0900000100#40 ∧ IllegalWord 0x0300000080#40 ∧
    IllegalWord 0x0700000501#40 ∧ IllegalWord 0x0502000000#40 ∧ IllegalWord 0x0601000001#40 ∧ ¬ IllegalWord 0x0601000000#40 := by
  refine ⟨by decide, rfl, ?_, ?_, ?_, ?_, ?_, ?_, ?_, ?_, ?_, ?_, ?_, ?_⟩ <;> simp [IllegalWord]
theorem witness_LegalWordBeforeInitRaisesNotInitialized :
    let s := { State.reset with offered := [0x0500000000#40] }
    s.seq = .idle ∧ s.bus = none ∧ s.offered = 0x0500000000#40 :: [] ∧ decode 0x0500000000#40 = .ok (.drawBorder false) ∧
      ∀ h, Instr.drawBorder false ≠ .init h := ⟨rfl, rfl, rfl, by decide, fun _ => by simp⟩

/-- Both ways into `FAULTED`, and a step that stays out of it. -/
theorem witness_FaultIsPreciseAndNamed :
    (∃ t, step { ready with offered := [0x0A00000000#40] } = .next t ∧ t.seq = .faulted ∧ ready.seq ≠ .faulted) ∧
    (∃ t, step { State.reset with offered := [0x0200000000#40] } = .next t ∧ t.seq = .faulted) ∧
    ∃ t, step ready = .next t ∧ t.seq ≠ .faulted := ⟨⟨_, rfl, rfl, by decide⟩, ⟨_, rfl, rfl⟩, ⟨_, rfl, by decide⟩⟩
theorem witness_FaultedBlockDoesNothingUntilReset : faultedState.seq = .faulted := by decide
theorem witness_UnansweredTransferHangs : waitingState.seq = .busy .update { pos := 5, inFlight := true } ∧
    waitingState.answers = .pending :: [] := by decide
theorem witness_LateAnswerResumesWhereItStopped : ready.seq = .idle ∧ (∀ a ∈ given 31, a.isPending = false) ∧
    ∃ t, exec .update { ready with answers := given 31 ++ .pending :: [] } = .next t ∧ t.seq.isBusy = true :=
  ⟨by decide, by decide, _, rfl, by decide +kernel⟩
theorem witness_TransferResultsAreIgnored :
    let s := { ready with offered := [0x0900000000#40], answers := [.ok, .fail, .pending] }
    s.answers.map Answer.isPending = [Answer.fail, .ok, .pending].map Answer.isPending ∧ ∃ t, step s = .next t :=
  ⟨by decide, _, rfl⟩

/-- The first and the last transfer of a command; with a bus bound, and for INIT with none. -/
theorem witness_CommandWaitsAtItsUnansweredTransfer :
    (answered 0).seq = .idle ∧ (answered 0).bus.isSome = true ∧ (answered 0).answers = [] ++ .pending :: [] ∧
    0 < transfersOf .clear ∧ (answered 95).answers = List.replicate 95 .fail ++ .pending :: [] ∧
    (∀ a ∈ List.replicate 95 Answer.fail, a.isPending = false) ∧ (List.replicate 95 Answer.fail).length < transfersOf (.displayMessage 0) ∧
    State.reset.seq = .idle ∧ (∃ h, Instr.init 3#8 = .init h) ∧ (List.replicate 47 Answer.fail).length < transfersOf (.init 3#8) :=
  ⟨by decide, by decide, by decide, by decide, by decide, by decide, by decide, by decide, ⟨_, rfl⟩, by decide⟩
theorem witness_TransferCostTable : (answered 96).seq = .idle ∧ (answered 96).bus.isSome = true ∧
    (answered 96).Answers (transfersOf (.displayMessage 255)) ∧ State.reset.seq = .idle ∧ State.reset.Answers (transfersOf (.init 0#8)) := by
  decide
theorem witness_LogOnlyGrowsUntilReset : ∃ t, step { ready with offered := [0x0900000000#40] } = .next t := ⟨_, rfl⟩
theorem witness_InitBindsSendsZeroesAndUpdates : (answered 48).seq = .idle ∧ (answered 48).Answers 48 ∧
    State.reset.seq = .idle ∧ State.reset.Answers 48 := by decide
theorem witness_AfterInitFramebufferIsZero : (answered 48).seq = .idle ∧ (answered 48).Answers 48 := by decide
theorem witness_InitBindsBusBeforeItsFirstTransfer : (answered 48).seq = .idle ∧ (answered 48).Answers 48 ∧
    (answered 0).answers = [] ++ .pending :: [] ∧ (answered 47).answers = List.replicate 47 .fail ++ .pending :: [] ∧
    (∀ a ∈ List.replicate 47 Answer.fail, a.isPending = false) ∧ (List.replicate 47 Answer.fail).length < 48 := by decide
theorem witness_OnlyInitWritesTheBus : State.reset.seq = .idle ∧ ∃ t, exec .clear ready = .next t := ⟨by decide, _, rfl⟩
theorem witness_ClearZeroesAndSends : (answered 32).Ready ∧ (answered 32).Answers 32 := by decide
theorem witness_ClearTwiceIsClearOnce : (answered 64).Ready ∧ (answered 64).Answers 64 := by decide
theorem witness_ZeroingIsTheByteLoop : Memory.wf [(0, 0x01#8), (1023, 0xFF#8)] = true := by decide
theorem witness_PixelMapIsABijection : 7 < 8 ∧ ((1023 : FbIndex).val % 128 = 127 ∧ (1023 : FbIndex).val / 128 * 8 + 7 = 63) ∧
    ¬ InBounds 128 0 ∧ ¬ InBounds 0 64 := by decide
theorem witness_DrawPixelWritesOneBit : 127 < 128 ∧ 63 < 64 ∧ (readyWith [(1023, 0x7F#8)]).Ready ∧
    (readyWith [(1023, 0x7F#8)]).fb.wf = true := by decide
theorem witness_ClippedPixelChangesNothing : (128 ≤ 128 ∨ 64 ≤ 0) ∧ (128 ≤ 0 ∨ 64 ≤ 64) ∧ ready.Ready := by decide
theorem witness_AnyNonzeroColorSets : ready.Ready ∧ 0x80#8 ≠ 0x00#8 ∧ 127 < Config.width ∧ 63 < Config.height ∧
    ready.fb.wf = true := by decide
theorem witness_DrawPixelIdempotentAndCommuting : (readyWith [(266, 0x10#8)]).Ready ∧ (readyWith [(266, 0x10#8)]).fb.wf = true ∧
    (readyWith [(266, 0x10#8)]).fb.pixel 10 20 = truthy 1#8 ∧ ready.fb.pixel 127 63 = truthy 0#8 ∧ (10, 20) ≠ (11, 20) := by decide
theorem witness_EdgePixels : ready.Ready := by decide
theorem witness_DrawSquareFillsTheRectangle : (answered 32).Ready ∧ (answered 32).fb.wf = true ∧ (answered 32).Answers 32 := by decide

/-- One rectangle for each of the four ways of being empty. -/
theorem witness_EmptySquareStillUpdates : (answered 32).Ready ∧ (answered 32).Answers 32 ∧ (0 = 0 ∨ 9 = 0 ∨ 128 ≤ 5 ∨ 64 ≤ 5) ∧
    (9 = 0 ∨ 0 = 0 ∨ 128 ≤ 5 ∨ 64 ≤ 5) ∧ (9 = 0 ∨ 9 = 0 ∨ 128 ≤ 128 ∨ 64 ≤ 5) ∧ (9 = 0 ∨ 9 = 0 ∨ 128 ≤ 5 ∨ 64 ≤ 64) := by decide
theorem witness_SquareIsItsClosedForm : (answered 32).Ready ∧ (answered 32).fb.wf = true ∧ (answered 32).Answers 32 ∧
    [(5, 7), (4, 7)].Perm (rectCells 4 7 2 1) := by decide
theorem witness_SolidBorderPixelsAndBytes : (answered 0).Ready ∧ (answered 0).fb.wf = true := by decide
theorem witness_DottedBorderPixelsAndBytes : (readyWith [(0, 0xFF#8)]).Ready ∧ (readyWith [(0, 0xFF#8)]).fb.wf = true := by decide
theorem witness_DottedBorderCorners : (answered 0).Ready ∧ (answered 0).fb = Memory.zero := by decide
theorem witness_BorderOnlySetsBits : (readyWith [(266, 0x10#8)]).Ready ∧ (readyWith [(266, 0x10#8)]).fb.wf = true ∧
    (readyWith [(266, 0x10#8)]).fb.pixel 10 20 = true := by decide
theorem witness_SetBorderLeavesOnlyTheBorder : (answered 64).Ready ∧ (answered 64).Answers 64 := by decide
theorem witness_SetBorderDataFrames : (answered 64).Ready ∧ (answered 64).Answers 64 ∧ 0 < 8 ∧ 7 < 8 := by decide
theorem witness_SetBorderTwiceIsSetBorderOnce : (answered 128).Ready ∧ (answered 128).Answers 128 := by decide +kernel
theorem witness_DrawStringOnlyUpdates : (answered 32).Ready ∧ (answered 32).Answers 32 := by decide
theorem witness_DisplayMessageClearsAndSendsThreeTimes : (answered 96).Ready ∧ (answered 96).Answers 96 := by decide
theorem witness_MessageLengthNeverMatters : (answered 96).Ready ∧ (answered 96).Answers 96 := by decide
theorem witness_CompositionsEqualTheirParts : (answered 64).Ready ∧ (answered 64).Answers 64 ∧ (answered 96).Ready ∧
    (answered 96).Answers 96 := by decide
theorem witness_UpdateSendsThePagesInterleaved : (answered 32).Ready ∧ (answered 32).Answers 32 ∧ 31 < 32 := by decide
theorem witness_UpdateHangsAtItsUnansweredTransfer : (answered 0).Ready ∧ (answered 0).answers = [] ++ .pending :: [] ∧
    (answered 31).Ready ∧ (answered 31).answers = List.replicate 31 .fail ++ .pending :: [] ∧
    (∀ a ∈ List.replicate 31 Answer.fail, a.isPending = false) ∧ (List.replicate 31 Answer.fail).length < 32 := by decide
theorem witness_UpdateTwiceSendsTheSameTwice : (answered 64).Ready ∧ (answered 64).Answers 64 := by decide

/-- A command that draws, one that is not accepted and one that faults. -/
theorem witness_FrameOfEveryCommand : ready.fb.wf = true ∧ (∃ t, exec (.drawSquare 0 0 8 8) ready = .next t) ∧
    mayChange (.drawSquare 0 0 8 8) 8 0 = false ∧ (∃ t, exec .update waitingState = .next t) ∧
    (∃ t, exec .clear State.reset = .next t) ∧ transfersOf (.drawBorder true) = 0 := ⟨by decide, ⟨_, rfl⟩, by decide, ⟨_, rfl⟩, ⟨_, rfl⟩, by decide⟩
/-- A faulted block with a word on its port and a step from it; a busy and an idle block. -/
theorem witness_WordOfferedWhileFaultedIsNeverAccepted :
    let s := { faultedState with offered := [0x0100000000#40] }
    s.seq = .faulted ∧ (∃ t, Host.Core.run Sys2Proof.core 1 s = .next t) ∧ waitingState.seq ≠ .faulted ∧ ready.seq ≠ .faulted :=
  ⟨rfl, ⟨_, rfl⟩, by decide, by decide⟩
theorem witness_HostObservesOnlyWhenNotBusy : ready.seq.isBusy = false ∧ faultedState.seq.isBusy = false ∧
    waitingState.seq.isBusy = true := by decide
theorem witness_ResetValues : (∃ s, faultedState.hostReset = State.hostReset s) ∧ faultedState.offered = [] := ⟨⟨_, rfl⟩, by decide⟩

/-- A waiting block in the run invariant, and a step from it; a faulted one as well. -/
theorem witness_RunInvariantKeptByStep : waitingState.Inv ∧ (∃ t, step waitingState = .next t) ∧ faultedState.Inv ∧
    ∃ t, step { ready with offered := [0x0900000000#40] } = .next t := by
  refine ⟨⟨by decide, by decide, by decide, by decide, by decide, ?_, fun _ h => nomatch h⟩, ⟨_, rfl⟩,
    ⟨by decide, by decide, by decide, by decide, by decide, ?_, fun _ h => nomatch h⟩, ⟨_, rfl⟩⟩
  · intro cmd p h
    cases h
    decide
  · intro cmd p h
    cases h
theorem witness_RunInvariantKeptByHost : waitingState.Inv := witness_RunInvariantKeptByStep.1

/-- Each of the three cases, the waiting INIT at its first and at its last init frame. -/
theorem witness_InitSequenceFirstKeptByStep : State.reset.InitSequenceFirst ∧
    State.InitSequenceFirst { ready with log := initTransfers (some 0#8) } ∧
    State.InitSequenceFirst { waitingState with
      seq := .busy (.init 0#8) { pos := 1, inFlight := true }, log := (initTransfers (some 0#8)).take 1 } ∧
    State.InitSequenceFirst { waitingState with
      seq := .busy (.init 0#8) { pos := 16, inFlight := true }, log := initTransfers (some 0#8) } ∧
    ∃ t, step ready = .next t :=
  ⟨.inl (by decide), .inr (.inl (by decide)), .inr (.inr ⟨0#8, 0, rfl, by decide, by decide⟩),
    .inr (.inr ⟨0#8, 15, rfl, by decide, by decide⟩), _, rfl⟩

end Sys2Proof.Tests
end

section
/-! SUPPORT. What the pseudocode of a command may hold, what each of its steps keeps, and where running it stops. The statements
about the state (bus, frame, run invariant) are derived from `permitted_of_mem_stepsOf`, `runSteps_outcome` and `exec_cases`. -/

namespace Sys2Proof.Machine

/-! ### The steps a command's pseudocode may hold -/

/-- The steps allowed in the pseudocode of command `i`: only its own bus is bound, only pixels it may change are written, and every
command frame sent is one the panel takes (10_state.md R30, R33; 30_encoding.md R94). -/
def Action.Permitted (i : Instr) : Action → Prop
  | .bindBus h => i = .init h
  | .zeroFb => ∀ px py, mayChange i px py = true
  | .pixelWrite x y _ => InBounds x y → mayChange i x y = true
  | .advanceCursor _ => True
  | .sendCmd c params => LegalFrame (cmdFrame c params)
  | .sendData _ => True

/-- The page-select command of page `p` is in the table (30_encoding.md R90). -/
theorem legalFrame_pageCmd (p : Fin Config.pages) : LegalFrame (cmdFrame (pageCmd p) []) := by
  have hframe : ∀ p : Fin 8, cmdFrame (pageCmd p) [] = [0x00#8, BitVec.ofNat 8 (0xB0 + p.val)] := by decide
  exact .inr (.inl ⟨p.val, p.isLt, hframe p⟩)

theorem legalFrame_dataFrame (m : Memory) (p : Fin Config.pages) : LegalFrame (dataFrame m p) :=
  .inr (.inr (.inr (.inr ⟨m.pageSlice p, rfl, pageSlice_length m p⟩)))

theorem permitted_of_mem_updateProc (i : Instr) {a : Action} (h : a ∈ updateProc) : a.Permitted i := by
  obtain ⟨p, -, ha⟩ := List.mem_flatMap.1 h
  simp only [pageSteps, List.mem_cons, List.not_mem_nil, or_false] at ha
  rcases ha with rfl | rfl | rfl | rfl
  · exact legalFrame_pageCmd p
  · exact .inr (.inr (.inl rfl))
  · exact .inr (.inr (.inr (.inl rfl)))
  · trivial

theorem permitted_of_mem_initSeqSteps (i : Instr) {a : Action} (h : a ∈ initSeqSteps) : a.Permitted i := by
  have hframes : initSeq.map (fun c => cmdFrame c.1 c.2) = initFrames := by decide
  obtain ⟨c, hc, rfl⟩ := List.mem_map.1 h
  exact .inl (hframes ▸ List.mem_map_of_mem hc)

theorem permitted_of_mem_clearProc {i : Instr} (hi : ∀ px py, mayChange i px py = true) {a : Action} (h : a ∈ clearProc) :
    a.Permitted i := by
  rcases List.mem_cons.1 h with rfl | h
  · exact hi
  · exact permitted_of_mem_updateProc i h

theorem permitted_of_mem_setCells {i : Instr} {cells : List (Nat × Nat)}
    (hi : ∀ x y, (x, y) ∈ cells → InBounds x y → mayChange i x y = true) {a : Action} (h : a ∈ setCells cells) : a.Permitted i := by
  obtain ⟨c, hc, rfl⟩ := List.mem_map.1 h
  exact hi c.1 c.2 hc

theorem permitted_of_mem_drawStringBody (i : Instr) {x y n : Nat} {a : Action} (h : a ∈ drawStringBody x y n) : a.Permitted i := by
  rcases List.mem_append.1 h with h | h
  · obtain ⟨k, -, rfl⟩ := List.mem_map.1 h
    trivial
  · exact permitted_of_mem_updateProc i h

/-- Every step of a command's pseudocode is permitted to it. -/
theorem permitted_of_mem_stepsOf {i : Instr} {a : Action} (h : a ∈ stepsOf i) : a.Permitted i := by
  cases i with
  | init bus =>
    rcases List.mem_cons.1 h with rfl | h
    · rfl
    rcases List.mem_append.1 h with h | h
    · exact permitted_of_mem_initSeqSteps _ h
    · exact permitted_of_mem_clearProc (fun _ _ => rfl) h
  | clear => exact permitted_of_mem_clearProc (fun _ _ => rfl) h
  | drawPixel x y color =>
    rcases List.mem_singleton.1 h with rfl
    exact fun _ => by simp [mayChange]
  | drawSquare x y width height =>
    rcases List.mem_append.1 h with h | h
    · exact permitted_of_mem_setCells (i := .drawSquare x y width height) (fun px py hc _ => (mem_rectCells x y width height px py).1 hc) h
    · exact permitted_of_mem_updateProc _ h
  | drawBorder solid =>
    exact permitted_of_mem_setCells (i := .drawBorder solid) (fun px py hc hb => (mem_borderCells solid hb.1 hb.2).1 hc) h
  | setBorder solid =>
    rcases List.mem_append.1 h with h | h
    · exact permitted_of_mem_clearProc (fun _ _ => rfl) h
    rcases List.mem_append.1 h with h | h
    · exact permitted_of_mem_setCells (fun _ _ _ _ => rfl) h
    · exact permitted_of_mem_updateProc _ h
  | drawString x y n => exact permitted_of_mem_drawStringBody (y := y) _ h
  | displayMessage n =>
    rcases List.mem_append.1 h with h | h
    · exact permitted_of_mem_clearProc (fun _ _ => rfl) h
    rcases List.mem_append.1 h with h | h
    · exact permitted_of_mem_drawStringBody _ h
    · exact permitted_of_mem_updateProc _ h
  | update => exact permitted_of_mem_updateProc _ h

/-! ### What the steps keep -/

/-- The bus a list of steps leaves is the old one, or one that a step of the list binds. -/
theorem applyAll_bus (l : List Action) (s : State) :
    (applyAll l s).bus = s.bus ∨ ∃ h, Action.bindBus h ∈ l ∧ (applyAll l s).bus = some h := by
  induction l generalizing s with
  | nil => exact .inl rfl
  | cons a l ih =>
    rw [applyAll_cons]
    rcases ih (a.apply s) with hbus | ⟨h, hmem, hbus⟩
    · cases a with
      | bindBus h => exact .inr ⟨h, List.mem_cons_self, hbus⟩
      | zeroFb => exact .inl hbus
      | pixelWrite x y on => exact .inl hbus
      | advanceCursor cx => exact .inl hbus
      | sendCmd c params => exact .inl hbus
      | sendData p => exact .inl hbus
    · exact .inr ⟨h, List.mem_cons_of_mem a hmem, hbus⟩

theorem Action.apply_log_of_local {a : Action} (ha : a.isTransfer = false) (s : State) : (a.apply s).log = s.log := by
  cases a with
  | sendCmd c params => cases ha
  | sendData p => cases ha
  | _ => rfl

theorem Action.apply_log_prefix (a : Action) (s : State) : s.log <+: (a.apply s).log := by
  cases a with
  | sendCmd c params => exact List.prefix_append _ _
  | sendData p => exact List.prefix_append _ _
  | _ => exact List.prefix_rfl

theorem applyAll_log_prefix (l : List Action) (s : State) : s.log <+: (applyAll l s).log := by
  induction l generalizing s with
  | nil => exact List.prefix_rfl
  | cons a l ih => exact (a.apply_log_prefix s).trans (ih (a.apply s))

/-- Steps with no transfer among them log nothing. -/
theorem applyAll_log_of_local {l : List Action} (hl : transferCount l = 0) (s : State) : (applyAll l s).log = s.log := by
  induction l generalizing s with
  | nil => rfl
  | cons a l ih =>
    have hlocal := List.countP_eq_zero.1 hl
    have ha : a.isTransfer = false := by simpa using hlocal a List.mem_cons_self
    have hrest : transferCount l = 0 := List.countP_eq_zero.2 fun b hb => hlocal b (List.mem_cons_of_mem a hb)
    rw [applyAll_cons, ih hrest, Action.apply_log_of_local ha]

theorem Action.apply_wf (a : Action) {s : State} (hs : s.fb.wf = true) : (a.apply s).fb.wf = true := by
  cases a with
  | zeroFb => exact Memory.wf_zero
  | pixelWrite x y on => exact Memory.wf_pixelWrite hs x y on
  | _ => exact hs

theorem applyAll_wf (l : List Action) {s : State} (hs : s.fb.wf = true) : (applyAll l s).fb.wf = true := by
  induction l generalizing s with
  | nil => exact hs
  | cons a l ih => exact ih (a.apply_wf hs)

/-- A step permitted to a command leaves the pixels the command may not change. -/
theorem Action.apply_pixel {i : Instr} {a : Action} (ha : a.Permitted i) {s : State} (hs : s.fb.wf = true)
    {px : Fin Config.width} {py : Fin Config.height} (hp : mayChange i px.val py.val = false) :
    (a.apply s).fb.pixel px py = s.fb.pixel px py := by
  cases a with
  | zeroFb => exact absurd (ha px.val py.val) (by simp [hp])
  | pixelWrite x y on =>
    refine (Memory.pixel_pixelWrite hs x y on px py).trans (if_neg ?_)
    rintro ⟨rfl, rfl⟩
    exact absurd (ha ⟨px.isLt, py.isLt⟩) (by simp [hp])
  | _ => rfl

theorem applyAll_pixel {i : Instr} {l : List Action} (hl : ∀ a ∈ l, a.Permitted i) {s : State} (hs : s.fb.wf = true)
    {px : Fin Config.width} {py : Fin Config.height} (hp : mayChange i px.val py.val = false) :
    (applyAll l s).fb.pixel px py = s.fb.pixel px py := by
  induction l generalizing s with
  | nil => rfl
  | cons a l ih =>
    rw [applyAll_cons, ih (fun b hb => hl b (List.mem_cons_of_mem a hb)) (a.apply_wf hs),
      Action.apply_pixel (hl a List.mem_cons_self) hs hp]

/-! ### Where running the steps stops -/

/-- The block either finished a command whose steps from position `pos` on are `steps`, or waits at one of their transfers. -/
def StoppedAt (cmd : Instr) (steps : List Action) (pos : Nat) (q : Seq) : Prop :=
  q = .idle ∨ ∃ k a, steps[k]? = some a ∧ a.isTransfer = true ∧ q = .busy cmd { pos := pos + k, inFlight := true }

theorem StoppedAt.not_faulted {cmd : Instr} {steps : List Action} {pos : Nat} {q : Seq} (h : StoppedAt cmd steps pos q) :
    q ≠ .faulted := by
  rcases h with rfl | ⟨k, a, -, -, rfl⟩ <;> simp

/-- Running steps applies the first of them, up to the end or to the transfer the block then waits at, and takes answers. -/
theorem runSteps_outcome (cmd : Instr) (steps : List Action) (pos : Nat) (s : State) :
    ∃ done as q, done <+: steps ∧ StoppedAt cmd steps pos q ∧
      runSteps cmd steps pos s = { applyAll done s with answers := as, seq := q } := by
  rcases answers_cases s (transferCount steps) with hall | ⟨pre, post, hs, hpre, hlt⟩
  · exact ⟨steps, _, .idle, List.prefix_rfl, .inl rfl, runSteps_done cmd steps pos s hall⟩
  · obtain ⟨before, a, after, hsteps, ha, -, hrun⟩ := runSteps_wait cmd steps pos s pre post hs hpre hlt
    refine ⟨before ++ [a], _, _, ⟨after, by simp [hsteps]⟩, .inr ⟨before.length, a, ?_, ha, rfl⟩, hrun⟩
    rw [hsteps, List.getElem?_append_right le_rfl, Nat.sub_self, List.getElem?_cons_zero]

/-- What executing a command can do: nothing at a block that is not `IDLE`; `NotInitialized`; or running its pseudocode
(60_exceptions.md R157). -/
theorem exec_cases (i : Instr) (s : State) :
    (s.seq ≠ .idle ∧ exec i s = .next s) ∨
    (s.seq = .idle ∧ s.bus = none ∧ isInit i = false ∧ exec i s = .next (s.raiseFault .notInitialized (encode i))) ∨
    (s.seq = .idle ∧ (isInit i = true ∨ s.bus.isSome = true) ∧
      exec i s = .next (runSteps i (stepsOf i) 0 { s with seq := .busy i .start })) := by
  by_cases hidle : s.seq = .idle
  · by_cases hrun : isInit i = true ∨ s.bus.isSome = true
    · exact .inr (.inr ⟨hidle, hrun, exec_runs hidle hrun⟩)
    · rw [not_or, Bool.not_eq_true, Bool.not_eq_true, Option.isSome_eq_false_iff, Option.isNone_iff_eq_none] at hrun
      exact .inr (.inl ⟨hidle, hrun.2, hrun.1, exec_not_init hidle hrun.2 hrun.1⟩)
  · exact .inl ⟨hidle, exec_not_idle hidle⟩

/-- The bus after running steps is the old one, or one that a step binds. -/
theorem runSteps_bus (cmd : Instr) (steps : List Action) (pos : Nat) (s : State) :
    (runSteps cmd steps pos s).bus = s.bus ∨ ∃ h, Action.bindBus h ∈ steps ∧ (runSteps cmd steps pos s).bus = some h := by
  obtain ⟨done, as, q, hdone, -, hrun⟩ := runSteps_outcome cmd steps pos s
  rw [hrun]
  exact (applyAll_bus done s).imp_right fun ⟨h, hmem, hbus⟩ => ⟨h, hdone.subset hmem, hbus⟩

/-- INIT accepted: the bus is bound, and the rest of its pseudocode runs from there (41_init_clear.md R103). -/
theorem exec_init_runs (h : BusHandle) {s : State} (hs : s.seq = .idle) : exec (.init h) s =
    .next (runSteps (.init h) ((stepsOf (.init h)).drop 1) 1 { s with seq := .busy (.init h) .start, bus := some h }) :=
  (exec_runs hs (.inl rfl)).trans (congrArg _ (runSteps_local rfl _ 0 _))

theorem isInit_eq_true {i : Instr} (hi : isInit i = true) : ∃ h, i = .init h := by
  cases i with
  | init h => exact ⟨h, rfl⟩
  | _ => cases hi

/-- An answer taken is gone from the schedule, and nothing else changes. -/
theorem takeAnswer_eq_some {s t : State} (h : s.takeAnswer = some t) : ∃ as, t = { s with answers := as } := by
  unfold State.takeAnswer at h
  split at h
  · exact ⟨s.answers, (Option.some.inj h).symm⟩
  · split at h
    · cases h
    · exact ⟨_, (Option.some.inj h).symm⟩

/-- Going on with a command whose transfer is in flight: the block waits, or the answer is taken and the next steps run. -/
theorem resumeCommand_cases (cmd : Instr) {p : Progress} (hp : p.inFlight = true) (s : State) :
    resumeCommand cmd p s = s ∨
    ∃ as, resumeCommand cmd p s = runSteps cmd ((stepsOf cmd).drop (p.pos + 1)) (p.pos + 1) { s with answers := as } := by
  unfold resumeCommand resumeSteps
  rw [if_pos hp]
  split
  · next t ht =>
    obtain ⟨as, rfl⟩ := takeAnswer_eq_some ht
    exact .inr ⟨as, rfl⟩
  · exact .inl rfl

/-- What a step of the block can do, by its sequencer and its port (20_memory.md R67; 60_exceptions.md R157, R158). -/
theorem step_cases (s : State) :
    (s.seq = .faulted ∧ step s = .next s) ∨
    (∃ cmd p, s.seq = .busy cmd p ∧ step s = .next (resumeCommand cmd p s)) ∨
    (s.seq = .idle ∧ s.offered = [] ∧ step s = .next s) ∨
    (∃ w rest e, s.seq = .idle ∧ s.offered = w :: rest ∧ decode w = .error e ∧
      step s = .next (rejectWord w { s with offered := rest })) ∨
    ∃ w rest i, s.seq = .idle ∧ s.offered = w :: rest ∧ decode w = .ok i ∧ step s = exec i { s with offered := rest } := by
  cases hseq : s.seq with
  | faulted => exact .inl ⟨rfl, by simp [step, hseq]⟩
  | busy cmd p => exact .inr (.inl ⟨cmd, p, rfl, by simp [step, hseq]⟩)
  | idle =>
    cases hoff : s.offered with
    | nil => exact .inr (.inr (.inl ⟨rfl, rfl, by simp [step, hseq, takeWord, hoff]⟩))
    | cons w rest =>
      cases hdec : decode w with
      | error e =>
        exact .inr (.inr (.inr (.inl ⟨w, rest, e, rfl, rfl, hdec, by simp [step, hseq, takeWord, hoff, hdec]⟩)))
      | ok i =>
        exact .inr (.inr (.inr (.inr ⟨w, rest, i, rfl, rfl, hdec, by simp [step, hseq, takeWord, hoff, hdec]⟩)))

end Sys2Proof.Machine
end

section
/-! SUPPORT. The bus register, the frame of every command, and STATUS (10_state.md R30, R33, R36). -/

namespace Sys2Proof.Machine

theorem State.initDone_iff (s : State) : s.initDone = true ↔ s.bus ≠ none := Option.isSome_iff_ne_none

theorem Seq.isBusy_iff (q : Seq) : q.isBusy = true ↔ ∃ cmd p, q = .busy cmd p := by
  cases q with
  | idle => simp [Seq.isBusy]
  | busy cmd p => simp [Seq.isBusy]
  | faulted => simp [Seq.isBusy]

/-- The bus after a command is the old one, or the command is INIT of the new one. -/
theorem exec_bus {i : Instr} {s t : State} (h : exec i s = .next t) : t.bus = s.bus ∨ ∃ b, i = .init b ∧ t.bus = some b := by
  rcases exec_cases i s with ⟨-, he⟩ | ⟨-, -, -, he⟩ | ⟨-, -, he⟩ <;> cases he.symm.trans h
  · exact .inl rfl
  · exact .inl rfl
  · exact (runSteps_bus i (stepsOf i) 0 _).imp_right fun ⟨b, hmem, hbus⟩ => ⟨b, permitted_of_mem_stepsOf hmem, hbus⟩

/-- INIT binds its bus, whether or not its transfers are answered. -/
theorem exec_init_bus (b : BusHandle) {s : State} (hs : s.seq = .idle) : ∃ t, exec (.init b) s = .next t ∧ t.bus = some b := by
  refine ⟨_, exec_init_runs b hs, ?_⟩
  rcases runSteps_bus (.init b) ((stepsOf (.init b)).drop 1) 1 { s with seq := .busy (.init b) .start, bus := some b } with
    hbus | ⟨b', hmem, hbus⟩
  · exact hbus
  · have hb : Instr.init b = .init b' := permitted_of_mem_stepsOf (List.mem_of_mem_drop hmem)
    cases hb
    exact hbus

/-- Settles O22: of a command's pseudocode only a `bindBus` step of INIT writes the bus. -/
theorem onlyInitWritesTheBus : Obligations.OnlyInitWritesTheBus :=
  ⟨rfl, State.initDone_iff, fun _ _ _ => exec_bus, fun b _ => exec_init_bus b⟩

/-- Running steps leaves the port and the fault record, and only adds to the log. -/
theorem runSteps_frame (cmd : Instr) (steps : List Action) (pos : Nat) (s : State) :
    (runSteps cmd steps pos s).offered = s.offered ∧ (runSteps cmd steps pos s).faultCode = s.faultCode ∧
      (runSteps cmd steps pos s).faultWord = s.faultWord ∧ s.log <+: (runSteps cmd steps pos s).log := by
  obtain ⟨done, as, q, -, -, hrun⟩ := runSteps_outcome cmd steps pos s
  rw [hrun]
  exact ⟨applyAll_offered done s, applyAll_faultCode done s, applyAll_faultWord done s, applyAll_log_prefix done s⟩

/-- Running permitted steps leaves the pixels the command may not change. -/
theorem runSteps_pixel {cmd : Instr} {steps : List Action} (hsteps : ∀ a ∈ steps, a.Permitted cmd) (pos : Nat) {s : State}
    (hwf : s.fb.wf = true) {px : Fin Config.width} {py : Fin Config.height} (hp : mayChange cmd px.val py.val = false) :
    (runSteps cmd steps pos s).fb.pixel px py = s.fb.pixel px py := by
  obtain ⟨done, as, q, hdone, -, hrun⟩ := runSteps_outcome cmd steps pos s
  rw [hrun]
  exact applyAll_pixel (fun a ha => hsteps a (hdone.subset ha)) hwf hp

/-- A command of no transfers logs nothing and takes no answer. -/
theorem exec_noTransfer {i : Instr} {s t : State} (hi : transfersOf i = 0) (h : exec i s = .next t) :
    t.log = s.log ∧ t.answers = s.answers := by
  have hcount : transferCount (stepsOf i) = 0 := (transferCount_stepsOf i).trans hi
  rcases exec_cases i s with ⟨-, he⟩ | ⟨-, -, -, he⟩ | ⟨hidle, hrun, -⟩
  · cases he.symm.trans h
    exact ⟨rfl, rfl⟩
  · cases he.symm.trans h
    exact ⟨rfl, rfl⟩
  · have hans : s.Answers (transferCount (stepsOf i)) := by simp [State.Answers, hcount]
    cases (exec_done hidle hrun hans).symm.trans h
    exact ⟨applyAll_log_of_local hcount s, by simp [hcount]⟩

/-- Settles O49, by the three things executing a command can do: nothing, a fault, or a run of permitted steps. -/
theorem frameOfEveryCommand : Obligations.FrameOfEveryCommand := by
  intro i s t hwf h
  have hbus : (∀ b, i ≠ .init b) → t.bus = s.bus := fun hi => (exec_bus h).resolve_right fun ⟨b, hb, _⟩ => hi b hb
  rcases exec_cases i s with ⟨-, he⟩ | ⟨hidle, -, -, he⟩ | ⟨-, -, he⟩
  · cases he.symm.trans h
    exact ⟨fun _ _ _ => rfl, hbus, rfl, fun _ => ⟨rfl, rfl⟩, List.prefix_rfl, fun _ => ⟨rfl, rfl⟩⟩
  · cases he.symm.trans h
    refine ⟨fun _ _ _ => rfl, hbus, rfl, fun hf => ?_, List.prefix_rfl, fun _ => ⟨rfl, rfl⟩⟩
    exact absurd (hidle.symm.trans (hf rfl)) (by simp)
  · have hlog : transfersOf i = 0 → t.log = s.log ∧ t.answers = s.answers := fun hi => exec_noTransfer hi h
    cases he.symm.trans h
    obtain ⟨hoffered, hcode, hword, hprefix⟩ := runSteps_frame i (stepsOf i) 0 { s with seq := .busy i .start }
    exact ⟨fun _ _ hp => runSteps_pixel (s := { s with seq := .busy i .start }) (fun _ => permitted_of_mem_stepsOf) 0 hwf hp, hbus,
      hoffered, fun _ => ⟨hcode, hword⟩, hprefix, hlog⟩

/-- The byte of STATUS, field by field, for every fault code and both flags. -/
theorem statusByte_fields : ∀ (code : BitVec 2) (initDone busy : Bool),
    let byte := BitVec.ofNat 8 (code.toNat * 4 + initDone.toNat * 2 + busy.toNat)
    byte.getLsbD 0 = busy ∧ byte.getLsbD 1 = initDone ∧ byte.extractLsb' 2 2 = code ∧ byte.extractLsb' 4 4 = 0#4 := by
  decide

/-- Settles O50: the fields of STATUS do not overlap. -/
theorem statusBits : Obligations.StatusBits := by
  refine ⟨fun s => ?_, by decide⟩
  obtain ⟨hbusy, hdone, hcode, hzero⟩ := statusByte_fields s.faultCode s.initDone s.seq.isBusy
  refine ⟨?_, ?_, hcode, hzero⟩
  · rw [State.status, hbusy, Seq.isBusy_iff]
  · rw [State.status, hdone, State.initDone_iff]

end Sys2Proof.Machine
end

section
/-! SUPPORT. The run invariant: what every pseudocode step of a running command keeps, and what every step of the block keeps. -/

namespace Sys2Proof.Machine

/-- Settles O53: the reset state lists no byte, names no fault and has sent nothing. -/
theorem runInvariantAtReset : Obligations.RunInvariantAtReset where
  fbCanonical := Memory.wf_nil
  faultCodeIff := by simp
  faultCodeLegal := by simp
  faultWordZero _ := rfl
  busyBound h := by simp [Seq.isBusy] at h
  busyWaits cmd p h := by simp at h
  logLegal tr h := by simp at h

/-- What holds of the block between two pseudocode steps of a running command: the run invariant of a block that has a bus and no
fault, without the clauses on where its sequencer stands. -/
structure State.Running (s : State) : Prop where
  fbCanonical : s.fb.wf = true
  noFaultCode : s.faultCode = 0#2
  noFaultWord : s.faultWord = 0#40
  bound : s.bus.isSome = true
  logLegal : ∀ tr ∈ s.log, tr.bus.isSome = true ∧ tr.addr = 0x3C#7 ∧ LegalFrame tr.bytes

/-- A block in the invariant that is not faulted runs, with any bus bound. -/
theorem State.Inv.running {s : State} (hs : s.Inv) (hseq : s.seq ≠ .faulted) (q : Seq) (as : List Answer)
    {bus : Option BusHandle} (hbus : bus.isSome = true) : State.Running { s with seq := q, answers := as, bus := bus } where
  fbCanonical := hs.fbCanonical
  noFaultCode := by simpa [hseq] using hs.faultCodeIff
  noFaultWord := hs.faultWordZero hseq
  bound := hbus
  logLegal := hs.logLegal

/-- Issuing a legal frame to the panel keeps the log legal. -/
theorem State.Running.issueTransfer {s : State} (hs : s.Running) {bytes : List Byte} (hbytes : LegalFrame bytes) :
    (s.issueTransfer Config.panelAddr bytes).Running where
  fbCanonical := hs.fbCanonical
  noFaultCode := hs.noFaultCode
  noFaultWord := hs.noFaultWord
  bound := hs.bound
  logLegal tr htr := by
    rcases List.mem_append.1 htr with htr | htr
    · exact hs.logLegal tr htr
    · rcases List.mem_singleton.1 htr with rfl
      exact ⟨hs.bound, rfl, hbytes⟩

/-- Every permitted step keeps it. -/
theorem Action.apply_running {i : Instr} {a : Action} (ha : a.Permitted i) {s : State} (hs : s.Running) : (a.apply s).Running := by
  cases a with
  | bindBus h => exact { hs with bound := rfl }
  | zeroFb => exact { hs with fbCanonical := Memory.wf_zero }
  | pixelWrite x y on => exact { hs with fbCanonical := Memory.wf_pixelWrite hs.fbCanonical x y on }
  | advanceCursor cx => exact hs
  | sendCmd c params => exact hs.issueTransfer ha
  | sendData p => exact hs.issueTransfer (legalFrame_dataFrame s.fb p)

theorem applyAll_running {i : Instr} {l : List Action} (hl : ∀ a ∈ l, a.Permitted i) {s : State} (hs : s.Running) :
    (applyAll l s).Running := by
  induction l generalizing s with
  | nil => exact hs
  | cons a l ih =>
    exact ih (fun b hb => hl b (List.mem_cons_of_mem a hb)) (Action.apply_running (hl a List.mem_cons_self) hs)

/-- Where running a command's steps from position `pos` stops, the run invariant holds. -/
theorem inv_of_stoppedAt {i : Instr} (hi : i.WellFormed) {pos : Nat} {q : Seq} (hq : StoppedAt i ((stepsOf i).drop pos) pos q)
    {s : State} (hs : s.Running) (as : List Answer) : State.Inv { s with answers := as, seq := q } where
  fbCanonical := hs.fbCanonical
  faultCodeIff := by simp [hs.noFaultCode, hq.not_faulted]
  faultCodeLegal := by simp [hs.noFaultCode]
  faultWordZero _ := hs.noFaultWord
  busyBound _ := hs.bound
  busyWaits cmd p hbusy := by
    rcases hq with rfl | ⟨k, a, hk, ha, rfl⟩
    · cases hbusy
    · cases hbusy
      rw [List.getElem?_drop] at hk
      exact ⟨hi, rfl, by rw [hk, Option.map_some, ha]⟩
  logLegal := hs.logLegal

/-- Running a command's pseudocode from any position ends in the run invariant. -/
theorem runSteps_inv {i : Instr} (hi : i.WellFormed) (pos : Nat) {s : State} (hs : s.Running) :
    (runSteps i ((stepsOf i).drop pos) pos s).Inv := by
  obtain ⟨done, as, q, hdone, hq, hrun⟩ := runSteps_outcome i ((stepsOf i).drop pos) pos s
  have hperm : ∀ a ∈ done, a.Permitted i := fun a ha => permitted_of_mem_stepsOf (List.mem_of_mem_drop (hdone.subset ha))
  rw [hrun]
  exact inv_of_stoppedAt hi hq (applyAll_running hperm hs) as

/-! ### The steps of the block -/

/-- A fault taken keeps the invariant (60_exceptions.md R157). -/
theorem State.Inv.raiseFault {s : State} (hs : s.Inv) (f : BlockFault) (w : CommandWord) : (s.raiseFault f w).Inv where
  fbCanonical := hs.fbCanonical
  faultCodeIff := by cases f <;> simp [BlockFault.code]
  faultCodeLegal := by cases f <;> simp [BlockFault.code]
  faultWordZero h := absurd rfl h
  busyBound h := by simp [Seq.isBusy] at h
  busyWaits cmd p h := by simp at h
  logLegal := hs.logLegal

/-- A byte fits an operand field. -/
@[simp] theorem fitsField_toNat (b : Byte) : fitsField b.toNat = true := decide_eq_true b.isLt

theorem ifReservedZero_ok {op : Byte} {z : Bool} {i j : Instr} (h : ifReservedZero op z i = .ok j) : i = j := by
  unfold ifReservedZero at h
  split at h
  · exact Except.ok.inj h
  · cases h

/-- A word that decodes carries operands that fit their fields (30_encoding.md R75). -/
theorem wellFormed_of_decode {w : CommandWord} {i : Instr} (h : decode w = .ok i) : i.WellFormed := by
  unfold decode decodeFields at h
  split at h
  -- DRAW_SQUARE has no reserved field and an unassigned opcode no command; every other opcode checks its reserved fields.
  case h_4 => cases h; simp [Instr.WellFormed, Instr.wellFormed]
  case h_10 => cases h
  all_goals cases ifReservedZero_ok h; simp [Instr.WellFormed, Instr.wellFormed]

/-- Executing a well-formed command keeps the invariant. -/
theorem exec_inv {i : Instr} (hi : i.WellFormed) {s t : State} (hs : s.Inv) (h : exec i s = .next t) : t.Inv := by
  rcases exec_cases i s with ⟨-, he⟩ | ⟨-, -, -, he⟩ | ⟨hidle, hrun, he⟩
  · cases he.symm.trans h
    exact hs
  · cases he.symm.trans h
    exact hs.raiseFault _ _
  · have hseq : s.seq ≠ .faulted := by simp [hidle]
    rcases hrun with hinit | hbound
    · obtain ⟨b, rfl⟩ := isInit_eq_true hinit
      cases (exec_init_runs b hidle).symm.trans h
      exact runSteps_inv hi 1 (hs.running hseq _ s.answers rfl)
    · cases he.symm.trans h
      exact runSteps_inv hi 0 (hs.running hseq _ s.answers hbound)

/-- Going on with a waiting command keeps the invariant. -/
theorem resumeCommand_inv {s : State} (hs : s.Inv) {cmd : Instr} {p : Progress} (hseq : s.seq = .busy cmd p) :
    (resumeCommand cmd p s).Inv := by
  obtain ⟨hwf, hflight, -⟩ := hs.busyWaits cmd p hseq
  have hbound : s.bus.isSome = true := hs.busyBound (by rw [hseq]; rfl)
  rcases resumeCommand_cases cmd hflight s with hwait | ⟨as, hgo⟩
  · rw [hwait]
    exact hs
  · rw [hgo]
    exact runSteps_inv hwf _ (hs.running (by simp [hseq]) s.seq as hbound)

/-- The words on the port do not matter to the invariant. -/
theorem State.Inv.setOffered {s : State} (hs : s.Inv) (ws : List CommandWord) : State.Inv { s with offered := ws } :=
  { hs with }

/-- Settles O54, by the five things a step can do. -/
theorem runInvariantKeptByStep : Obligations.RunInvariantKeptByStep := by
  intro s t hs h
  rcases step_cases s with ⟨-, he⟩ | ⟨cmd, p, hseq, he⟩ | ⟨-, -, he⟩ | ⟨w, rest, e, -, -, -, he⟩ | ⟨w, rest, i, -, -, hdec, he⟩
  · cases he.symm.trans h
    exact hs
  · cases he.symm.trans h
    exact resumeCommand_inv hs hseq
  · cases he.symm.trans h
    exact hs
  · cases he.symm.trans h
    exact (hs.setOffered rest).raiseFault .illegalCommand w
  · exact exec_inv (wellFormed_of_decode hdec) (hs.setOffered rest) (he.symm.trans h)

end Sys2Proof.Machine
end

section
/-! SUPPORT. A step of the block case by case, what every step keeps, and how a wait goes on: the port, the transfer log and the
answers to transfers (20_memory.md R57 to R59, R67; 60_exceptions.md R158). -/

namespace Sys2Proof.Machine

/-! ### A step, case by case -/

theorem step_faulted {s : State} (hs : s.seq = .faulted) : step s = .next s := by simp [step, hs]

theorem step_busy {s : State} {cmd : Instr} {p : Progress} (hs : s.seq = .busy cmd p) :
    step s = .next (resumeCommand cmd p s) := by
  simp [step, hs]

theorem step_idle_empty {s : State} (hs : s.seq = .idle) (hoff : s.offered = []) : step s = .next s := by
  simp [step, hs, takeWord, hoff]

theorem step_idle_illegal {s : State} {w : CommandWord} {rest : List CommandWord} {e : DecodeError} (hs : s.seq = .idle)
    (hoff : s.offered = w :: rest) (hdec : decode w = .error e) : step s = .next (rejectWord w { s with offered := rest }) := by
  simp [step, hs, takeWord, hoff, hdec]

theorem step_idle_legal {s : State} {w : CommandWord} {rest : List CommandWord} {i : Instr} (hs : s.seq = .idle)
    (hoff : s.offered = w :: rest) (hdec : decode w = .ok i) : step s = exec i { s with offered := rest } := by
  simp [step, hs, takeWord, hoff, hdec]

/-- Settles O5: the last of the five cases of a step. -/
theorem stepRunsTheDecodedCommand : Obligations.StepRunsTheDecodedCommand :=
  fun _ _ _ _ => step_idle_legal

/-! ### What every step keeps -/

/-- Going on with a command, from any progress: the block waits, or some rest of the pseudocode runs. -/
theorem resumeCommand_outcome (cmd : Instr) (p : Progress) (s : State) :
    resumeCommand cmd p s = s ∨
    ∃ k as, resumeCommand cmd p s = runSteps cmd ((stepsOf cmd).drop k) k { s with answers := as } := by
  cases hp : p.inFlight with
  | true => exact (resumeCommand_cases cmd hp s).imp_right fun ⟨as, h⟩ => ⟨_, as, h⟩
  | false => exact .inr ⟨p.pos, s.answers, by simp [resumeCommand, resumeSteps, hp]⟩

/-- Going on with a command leaves the port alone and only adds to the log. -/
theorem resumeCommand_frame (cmd : Instr) (p : Progress) (s : State) :
    (resumeCommand cmd p s).offered = s.offered ∧ s.log <+: (resumeCommand cmd p s).log := by
  rcases resumeCommand_outcome cmd p s with hwait | ⟨k, as, hgo⟩
  · rw [hwait]
    exact ⟨rfl, List.prefix_rfl⟩
  · rw [hgo]
    obtain ⟨hoffered, -, -, hlog⟩ := runSteps_frame cmd ((stepsOf cmd).drop k) k { s with answers := as }
    exact ⟨hoffered, hlog⟩

/-- Executing a command leaves the port alone and only adds to the log. -/
theorem exec_frame {i : Instr} {s t : State} (h : exec i s = .next t) : t.offered = s.offered ∧ s.log <+: t.log := by
  rcases exec_cases i s with ⟨-, he⟩ | ⟨-, -, -, he⟩ | ⟨-, -, he⟩ <;> cases he.symm.trans h
  · exact ⟨rfl, List.prefix_rfl⟩
  · exact ⟨rfl, List.prefix_rfl⟩
  · obtain ⟨hoffered, -, -, hlog⟩ := runSteps_frame i (stepsOf i) 0 { s with seq := .busy i .start }
    exact ⟨hoffered, hlog⟩

/-- A step adds to the log; it leaves the port alone or, at an `IDLE` block, takes its oldest word. -/
theorem step_frame {s t : State} (h : step s = .next t) :
    (t.offered = s.offered ∨ (s.seq = .idle ∧ ∃ w, s.offered = w :: t.offered)) ∧ s.log <+: t.log := by
  rcases step_cases s with ⟨-, he⟩ | ⟨cmd, p, -, he⟩ | ⟨-, -, he⟩ | ⟨w, rest, e, hs, hoff, -, he⟩ | ⟨w, rest, i, hs, hoff, -, he⟩
  · cases he.symm.trans h
    exact ⟨.inl rfl, List.prefix_rfl⟩
  · cases he.symm.trans h
    exact (resumeCommand_frame cmd p s).imp_left .inl
  · cases he.symm.trans h
    exact ⟨.inl rfl, List.prefix_rfl⟩
  · cases he.symm.trans h
    exact ⟨.inr ⟨hs, w, hoff⟩, List.prefix_rfl⟩
  · obtain ⟨hoffered, hlog⟩ := exec_frame (he.symm.trans h)
    exact ⟨.inr ⟨hs, w, by rw [hoff, hoffered]⟩, hlog⟩

/-- Settles O8: only an `IDLE` block takes a word, and running a command leaves the port alone. -/
theorem portAcceptsOnlyWhenIdle : Obligations.PortAcceptsOnlyWhenIdle :=
  ⟨fun _ _ h => (step_frame h).1, fun _ _ => exec_not_idle⟩

/-- Settles O18: a pseudocode step logs at most one transfer, behind those before it. -/
theorem logOnlyGrowsUntilReset : Obligations.LogOnlyGrowsUntilReset :=
  ⟨fun _ _ h => (step_frame h).2, State.hostReset_log⟩

/-! ### Waiting -/

/-- A state that steps to itself is where every number of steps leads. -/
theorem run_of_step_self {M : Host.Core} {s : M.State} (h : M.step s = .next s) (n : Nat) : M.run n s = .next s := by
  induction n with
  | zero => rfl
  | succ n ih =>
    rw [Host.Core.run, h]
    exact ih

theorem resumeCommand_pending {s : State} (cmd : Instr) {p : Progress} {post : List Answer} (hp : p.inFlight = true)
    (hs : s.answers = .pending :: post) : resumeCommand cmd p s = s := by
  simp [resumeCommand, resumeSteps, hp, takeAnswer_pending hs rfl]

theorem resumeCommand_answered {s : State} (cmd : Instr) {p : Progress} {a : Answer} {post : List Answer} (hp : p.inFlight = true)
    (hs : s.answers = a :: post) (ha : a.isPending = false) : resumeCommand cmd p s =
      runSteps cmd ((stepsOf cmd).drop (p.pos + 1)) (p.pos + 1) { s with answers := post } := by
  simp [resumeCommand, resumeSteps, hp, takeAnswer_answered hs ha]

/-- Settles O13: with the answer pending, going on is waiting. -/
theorem unansweredTransferHangs : Obligations.UnansweredTransferHangs := by
  intro n s cmd p post hs hp hans
  have hwait : step s = .next s := by rw [step_busy hs, resumeCommand_pending cmd hp hans]
  exact run_of_step_self hwait n

end Sys2Proof.Machine
end

section
/-! SUPPORT. The answers to transfers: their results are not read, a late one is as good as one given at once, and where a command
waits that lacks one (20_memory.md R57, R58, R62). -/

namespace Sys2Proof.Machine

/-! ### The results of transfers are not read -/

/-- The states differ at most in which results the platform answers: the same answers are pending. -/
def State.EqUpToResults (s u : State) : Prop :=
  ∃ bs, s.answers.map Answer.isPending = bs.map Answer.isPending ∧ u = { s with answers := bs }

theorem Action.apply_eqUpToResults (a : Action) {s u : State} (h : s.EqUpToResults u) : (a.apply s).EqUpToResults (a.apply u) := by
  obtain ⟨bs, hbs, rfl⟩ := h
  exact ⟨bs, by rw [a.apply_answers, hbs], a.apply_setAnswers s bs⟩

/-- Taking an answer waits in both states or completes the transfer in both. -/
theorem takeAnswer_eqUpToResults {s u : State} (h : s.EqUpToResults u) : (s.takeAnswer = none ∧ u.takeAnswer = none) ∨
    ∃ s' u', s.takeAnswer = some s' ∧ u.takeAnswer = some u' ∧ s'.EqUpToResults u' := by
  obtain ⟨bs, hbs, rfl⟩ := h
  cases hs : s.answers with
  | nil =>
    obtain rfl : bs = [] := by simpa [hs] using hbs
    exact .inr ⟨_, _, takeAnswer_nil hs, takeAnswer_nil rfl, [], hbs, rfl⟩
  | cons a as =>
    rw [hs, List.map_cons] at hbs
    obtain ⟨b, bs, rfl, hb, hrest⟩ := List.map_eq_cons_iff.1 hbs.symm
    cases ha : a.isPending with
    | true => exact .inl ⟨takeAnswer_pending hs ha, takeAnswer_pending rfl (hb.trans ha)⟩
    | false => exact .inr ⟨_, _, takeAnswer_answered hs ha, takeAnswer_answered rfl (hb.trans ha), bs, hrest.symm, rfl⟩

theorem runSteps_eqUpToResults (cmd : Instr) (steps : List Action) (pos : Nat) {s u : State} (h : s.EqUpToResults u) :
    (runSteps cmd steps pos s).EqUpToResults (runSteps cmd steps pos u) := by
  induction steps generalizing pos s u with
  | nil =>
    obtain ⟨bs, hbs, rfl⟩ := h
    exact ⟨bs, hbs, rfl⟩
  | cons a rest ih =>
    have happly := a.apply_eqUpToResults h
    cases ha : a.isTransfer with
    | false =>
      rw [runSteps_local ha, runSteps_local ha]
      exact ih _ happly
    | true =>
      rcases takeAnswer_eqUpToResults happly with ⟨hs, hu⟩ | ⟨s', u', hs, hu, hrel⟩
      · rw [runSteps_hang ha hs, runSteps_hang ha hu]
        obtain ⟨bs, hbs, hau⟩ := happly
        exact ⟨bs, hbs, by rw [hau]⟩
      · rw [runSteps_transfer ha hs, runSteps_transfer ha hu]
        exact ih _ hrel

theorem resumeCommand_eqUpToResults (cmd : Instr) (p : Progress) {s u : State} (h : s.EqUpToResults u) :
    (resumeCommand cmd p s).EqUpToResults (resumeCommand cmd p u) := by
  unfold resumeCommand resumeSteps
  cases p.inFlight with
  | false => exact runSteps_eqUpToResults cmd _ _ h
  | true =>
    rcases takeAnswer_eqUpToResults h with ⟨hs, hu⟩ | ⟨s', u', hs, hu, hrel⟩ <;> rw [hs, hu]
    · exact h
    · exact runSteps_eqUpToResults cmd _ _ hrel

theorem exec_eqUpToResults {i : Instr} {s t u : State} (h : s.EqUpToResults u) (hst : exec i s = .next t) :
    ∃ v, exec i u = .next v ∧ t.EqUpToResults v := by
  obtain ⟨bs, hbs, rfl⟩ := h
  rcases exec_cases i s with ⟨hs, he⟩ | ⟨hs, hbus, hi, he⟩ | ⟨hs, hrun, he⟩ <;> cases he.symm.trans hst
  · exact ⟨_, exec_not_idle hs, bs, hbs, rfl⟩
  · exact ⟨_, exec_not_init hs hbus hi, bs, hbs, rfl⟩
  · exact ⟨_, exec_runs hs hrun, runSteps_eqUpToResults i _ 0 ⟨bs, hbs, rfl⟩⟩

theorem step_eqUpToResults {s t u : State} (h : s.EqUpToResults u) (hst : step s = .next t) :
    ∃ v, step u = .next v ∧ t.EqUpToResults v := by
  obtain ⟨bs, hbs, rfl⟩ := h
  rcases step_cases s with ⟨hs, he⟩ | ⟨cmd, p, hs, he⟩ | ⟨hs, hoff, he⟩ | ⟨w, rest, e, hs, hoff, hdec, he⟩ |
    ⟨w, rest, i, hs, hoff, hdec, he⟩
  · cases he.symm.trans hst
    exact ⟨_, step_faulted hs, bs, hbs, rfl⟩
  · cases he.symm.trans hst
    exact ⟨_, step_busy hs, resumeCommand_eqUpToResults cmd p ⟨bs, hbs, rfl⟩⟩
  · cases he.symm.trans hst
    exact ⟨_, step_idle_empty hs hoff, bs, hbs, rfl⟩
  · cases he.symm.trans hst
    exact ⟨_, step_idle_illegal hs hoff hdec, bs, hbs, rfl⟩
  · obtain ⟨v, hv, hrel⟩ := exec_eqUpToResults (s := { s with offered := rest }) ⟨bs, hbs, rfl⟩ (he.symm.trans hst)
    exact ⟨v, (step_idle_legal (s := { s with answers := bs }) hs hoff hdec).trans hv, hrel⟩

/-- Settles O15: equality up to results is kept by every pseudocode step, every answer taken, and so by every step of the block. -/
theorem transferResultsAreIgnored : Obligations.TransferResultsAreIgnored := by
  intro s t bs hbs hst
  obtain ⟨_, hv, cs, hcs, rfl⟩ := step_eqUpToResults ⟨bs, hbs, rfl⟩ hst
  exact ⟨cs, hv, hcs⟩

/-! ### A late answer -/

theorem takeAnswer_setSeq (s : State) (q : Seq) :
    State.takeAnswer { s with seq := q } = s.takeAnswer.map fun t => { t with seq := q } := by
  obtain ⟨fb, bus, seq, faultCode, faultWord, log, offered, answers⟩ := s
  cases answers with
  | nil => rfl
  | cons a rest => cases a <;> rfl

/-- Running steps does not read the sequencer. -/
theorem runSteps_setSeq (cmd : Instr) (steps : List Action) (pos : Nat) (s : State) (q : Seq) :
    runSteps cmd steps pos { s with seq := q } = runSteps cmd steps pos s := by
  induction steps generalizing pos s with
  | nil => rfl
  | cons a rest ih =>
    cases ha : a.isTransfer with
    | false => rw [runSteps_local ha, runSteps_local ha, a.apply_setSeq, ih]
    | true =>
      have htake := takeAnswer_setSeq (a.apply s) q
      rw [← a.apply_setSeq] at htake
      cases hs : (a.apply s).takeAnswer with
      | none => rw [runSteps_hang ha hs, runSteps_hang ha (by rw [htake, hs]; rfl), a.apply_setSeq]
      | some t => rw [runSteps_transfer ha hs, runSteps_transfer ha (by rw [htake, hs]; rfl), ih]

/-- With the transfers of the first steps answered, running goes on with the steps after them. -/
theorem runSteps_append (cmd : Instr) (steps rest : List Action) (pos : Nat) (s : State) {pre post : List Answer}
    (hs : s.answers = pre ++ post) (hpre : ∀ a ∈ pre, a.isPending = false) (hlen : pre.length = transferCount steps) :
    runSteps cmd (steps ++ rest) pos s = runSteps cmd rest (pos + steps.length) { applyAll steps s with answers := post } := by
  induction steps generalizing pos s pre with
  | nil =>
    obtain rfl := List.length_eq_zero_iff.1 hlen
    rw [List.nil_append] at hs
    subst hs
    rfl
  | cons a steps ih =>
    rw [transferCount_cons] at hlen
    have hpos : pos + (a :: steps).length = pos + 1 + steps.length := by rw [List.length_cons]; omega
    rw [List.cons_append, applyAll_cons, hpos]
    cases ha : a.isTransfer with
    | false => rw [runSteps_local ha, ih _ _ (by rw [a.apply_answers, hs]) hpre (by simpa [ha] using hlen)]
    | true =>
      rw [ha, if_pos rfl] at hlen
      obtain ⟨b, pre, rfl⟩ := List.exists_cons_of_length_eq_add_one hlen
      have hans : (a.apply s).answers = b :: (pre ++ post) := by rw [a.apply_answers, hs, List.cons_append]
      rw [runSteps_transfer ha (takeAnswer_answered hans (hpre b List.mem_cons_self)),
        ih _ { a.apply s with answers := pre ++ post } rfl (fun c hc => hpre c (List.mem_cons_of_mem b hc)) (Nat.succ.inj hlen),
        applyAll_setAnswers]

/-- A command accepted with the transfers of its first steps answered: it goes on with the steps after them. -/
theorem exec_goes_on {i : Instr} {s : State} (hs : s.seq = .idle) (hrun : isInit i = true ∨ s.bus.isSome = true)
    {steps rest : List Action} (hsteps : stepsOf i = steps ++ rest) {pre post : List Answer} (hans : s.answers = pre ++ post)
    (hpre : ∀ a ∈ pre, a.isPending = false) (hlen : pre.length = transferCount steps) :
    exec i s = .next (runSteps i rest steps.length { applyAll steps s with answers := post }) := by
  rw [exec_runs hs hrun, hsteps, runSteps_append i steps rest 0 { s with seq := .busy i .start } hans hpre hlen, Nat.zero_add,
    applyAll_setSeq]
  exact congrArg _ (runSteps_setSeq i rest steps.length { applyAll steps s with answers := post } (.busy i .start))

@[simp] theorem TransferResult.answer_isPending (r : TransferResult) : r.answer.isPending = false := by cases r <;> rfl

/-- Once the transfer in flight is completed, with either result, the command goes on with its next step. -/
theorem step_completeTransfer {s : State} {cmd : Instr} {p : Progress} {post : List Answer} (hs : s.seq = .busy cmd p)
    (hp : p.inFlight = true) (hans : s.answers = .pending :: post) (r : TransferResult) : step (s.completeTransfer r) =
      .next (runSteps cmd ((stepsOf cmd).drop (p.pos + 1)) (p.pos + 1) { s with answers := post }) := by
  have hcomplete : s.completeTransfer r = { s with answers := r.answer :: post } := by
    simp [State.completeTransfer, hs, Seq.inFlight, hp, hans]
  rw [hcomplete, step_busy (s := { s with answers := r.answer :: post }) hs,
    resumeCommand_answered cmd hp rfl r.answer_isPending]

/-- A command that stops `BUSY` has run up to its first transfer with no answer. -/
theorem exec_busy {i : Instr} {s t : State} (hs : s.seq = .idle) {pre post : List Answer} (hans : s.answers = pre ++ .pending :: post)
    (hpre : ∀ a ∈ pre, a.isPending = false) (h : exec i s = .next t) (ht : t.seq.isBusy = true) :
    (isInit i = true ∨ s.bus.isSome = true) ∧ pre.length < transferCount (stepsOf i) := by
  rcases exec_cases i s with ⟨hne, -⟩ | ⟨-, -, -, he⟩ | ⟨-, hrun, -⟩
  · exact absurd hs hne
  · cases he.symm.trans h
    cases ht
  · refine ⟨hrun, lt_of_not_ge fun hle => ?_⟩
    have hall : s.Answers (transferCount (stepsOf i)) := by
      intro a ha
      rw [hans, List.take_append_of_le_length hle] at ha
      exact hpre a (List.mem_of_mem_take ha)
    cases (exec_done hs hrun hall).symm.trans h
    cases ht

/-- Settles O14: the answer that ends the wait is the one `runSteps` would have taken at that transfer. -/
theorem lateAnswerResumesWhereItStopped : Obligations.LateAnswerResumesWhereItStopped := by
  intro i s t pre post r hs hpre h ht
  obtain ⟨hrun, hlt⟩ := exec_busy (s := { s with answers := pre ++ .pending :: post }) hs rfl hpre h ht
  obtain ⟨before, a, after, hsteps, ha, hcount, hwait⟩ :=
    exec_wait (s := { s with answers := pre ++ .pending :: post }) hs hrun rfl hpre hlt
  cases hwait.symm.trans h
  have hsplit : stepsOf i = (before ++ [a]) ++ after := hsteps.trans (List.append_cons before a after)
  have hdrop : (stepsOf i).drop (before.length + 1) = after := by rw [hsplit, List.drop_left' (by simp)]
  have hgiven : ∀ b ∈ pre ++ [r.answer], b.isPending = false := by simpa [or_imp, forall_and] using hpre
  have hlen : (pre ++ [r.answer]).length = transferCount (before ++ [a]) := by
    simp [transferCount_append, transferCount_cons, ha, hcount]
  have hatOnce := exec_goes_on (s := { s with answers := pre ++ r.answer :: post }) hs hrun hsplit (pre := pre ++ [r.answer])
    (post := post) (by simp) hgiven hlen
  rw [step_completeTransfer rfl rfl rfl, hdrop, hatOnce, List.length_append, applyAll_setAnswers _ s (pre ++ .pending :: post),
    applyAll_setAnswers _ s (pre ++ r.answer :: post)]
  exact congrArg _ (runSteps_setSeq i after (before.length + 1) { applyAll (before ++ [a]) s with answers := post } _)

/-! ### A command that waits -/

theorem Action.apply_log_length (a : Action) (s : State) :
    (a.apply s).log.length = s.log.length + if a.isTransfer then 1 else 0 := by
  cases a with
  | sendCmd c params => exact List.length_append
  | sendData p => exact List.length_append
  | _ => rfl

/-- Each transfer is one entry of the log. -/
theorem applyAll_log_length (l : List Action) (s : State) : (applyAll l s).log.length = s.log.length + transferCount l := by
  induction l generalizing s with
  | nil => rfl
  | cons a l ih => rw [applyAll_cons, ih, a.apply_log_length, transferCount_cons]; omega

/-- The bus an accepted command leaves depends on the bus it found and on nothing else of the state, also not on the answers. -/
theorem exec_bus_congr {i : Instr} {s s' t t' : State} (hs : s.seq = .idle) (hs' : s'.seq = .idle) (hbus : s.bus = s'.bus)
    (h : exec i s = .next t) (h' : exec i s' = .next t') : t.bus = t'.bus := by
  by_cases hi : ∃ b, i = .init b
  · obtain ⟨b, rfl⟩ := hi
    obtain ⟨_, he, hb⟩ := exec_init_bus b hs
    obtain ⟨_, he', hb'⟩ := exec_init_bus b hs'
    cases he.symm.trans h
    cases he'.symm.trans h'
    rw [hb, hb']
  · have hkeep : ∀ {s t : State}, exec i s = .next t → t.bus = s.bus :=
      fun h => (exec_bus h).resolve_right fun ⟨b, hb, _⟩ => hi ⟨b, hb⟩
    rw [hkeep h, hkeep h', hbus]

/-- Settles O16: the steps done are the first ones of the pseudocode, up to its transfer number `pre.length`, and each transfer is one
entry of the log. -/
theorem commandWaitsAtItsUnansweredTransfer : Obligations.CommandWaitsAtItsUnansweredTransfer := by
  intro i s pre post hs hinit hans hpre hlt
  have hrun : isInit i = true ∨ s.bus.isSome = true := hinit.symm.imp_left fun ⟨h, hi⟩ => by rw [hi]; rfl
  rw [← transferCount_stepsOf] at hlt
  obtain ⟨before, a, after, hsteps, ha, hcount, hwait⟩ := exec_wait hs hrun hans hpre hlt
  have hdone := exec_done (s := { s with answers := [] }) hs hrun (fun b hb => by simp at hb)
  have hprefix : (applyAll (before ++ [a]) s).log <+: (applyAll (stepsOf i) { s with answers := [] }).log := by
    rw [applyAll_setAnswers _ s [], hsteps.trans (List.append_cons before a after), applyAll_append _ after]
    exact applyAll_log_prefix after _
  have hlen : (applyAll (before ++ [a]) s).log.length = s.log.length + pre.length + 1 := by
    rw [applyAll_log_length, transferCount_append, hcount, transferCount_cons, ha]; rfl
  have hbus := exec_bus_congr (s' := { s with answers := [] }) hs hs rfl hwait hdone
  exact ⟨_, _, before.length, hwait, hdone, rfl, hlen ▸ List.prefix_iff_eq_take.1 hprefix, hbus, rfl, applyAll_faultCode _ s,
    applyAll_faultWord _ s, applyAll_offered _ s⟩

end Sys2Proof.Machine
end

section
/-! SUPPORT. The pixel map and what the host may do to the block (20_memory.md R50, R67 to R69; 70_reset_and_hazards.md R182). -/

namespace Sys2Proof.Machine

/-- Settles O26: `i = (i / 128) * 128 + i % 128`, and the row of a page is its remainder by 8. -/
theorem pixelMapIsABijection : Obligations.PixelMapIsABijection := by
  refine ⟨fun i k hk x y => ?_, fun i k hk => ?_, fun x y on m h => Memory.pixelWrite_out h m on⟩
  · have hx : x.val < 128 := x.isLt
    simp only [Fin.ext_iff, Memory.pixelIndex_val, pixelBit, Config.pageRows]
    constructor
    · rintro ⟨hi, hbit⟩
      exact ⟨by omega, by omega⟩
    · rintro ⟨hcol, hrow⟩
      exact ⟨by omega, by omega⟩
  · have hi : i.val < 1024 := i.isLt
    exact ⟨by omega, by omega⟩

/-- Completing a transfer changes only the answers. -/
theorem completeTransfer_eq (s : State) (r : TransferResult) : ∃ as, s.completeTransfer r = { s with answers := as } := by
  unfold State.completeTransfer
  split
  · exact ⟨_, rfl⟩
  · exact ⟨s.answers, rfl⟩

/-- Settles O55: the invariant says nothing of the port and the answers, and a reset leaves the reset values of all else. -/
theorem runInvariantKeptByHost : Obligations.RunInvariantKeptByHost := by
  intro s hs
  refine ⟨fun w => hs.setOffered _, fun r => ?_, { runInvariantAtReset with }⟩
  obtain ⟨as, has⟩ := completeTransfer_eq s r
  rw [has]
  exact { hs with }

/-- Settles O58: a faulted block stays as it is, and its reset is an idle block with an empty port, which stays as it is. -/
theorem wordOfferedWhileFaultedIsNeverAccepted : Obligations.WordOfferedWhileFaultedIsNeverAccepted := by
  refine ⟨fun s hs => ⟨State.offer_faulted hs, fun n t ht => ?_⟩, fun s w hs => ?_⟩
  · cases (run_of_step_self (step_faulted hs) n).symm.trans ht
    have hport : s.hostReset.offered = [] := State.offeredAfterReset_faulted hs
    exact ⟨hport, run_of_step_self (step_idle_empty (State.hostReset_seq s) hport)⟩
  · rw [State.offer_not_faulted hs]
    exact ⟨rfl, rfl, State.offeredAfterReset_not_faulted hs⟩

/-- Settles O51: the bytes observed are the reads of all indices in their order. -/
theorem hostObservesOnlyWhenNotBusy : Obligations.HostObservesOnlyWhenNotBusy := by
  intro s
  refine ⟨by simp [State.observe], fun hs => ⟨_, by rw [State.observe, hs, if_neg Bool.false_ne_true], rfl, rfl, rfl, ?_, fun i => ?_⟩⟩
  · rw [List.length_map, List.length_finRange]
  · simp

end Sys2Proof.Machine
end

section
/-! SUPPORT. The codec round trips and the opcode table (30_encoding.md R74 to R79). `decode_encode`, `encode_of_decode` and
`exists_encode_of_matchesWord` say in turn that decoding undoes encoding, that encoding undoes decoding, and that every word of a row
is the word of a well-formed command of that row; the statements about the table are derived from these three. -/

namespace Sys2Proof.Machine

/-! ### Operands and their fields -/

@[simp] theorem operandByte_toNat (b : Byte) : operandByte b.toNat = b := (BitVec.ofNat_toNat 8 b).trans (BitVec.setWidth_eq b)

/-- An operand that fits its field is read back from it. -/
theorem toNat_operandByte {v : Nat} (h : fitsField v = true) : (operandByte v).toNat = v :=
  Nat.mod_eq_of_lt (of_decide_eq_true h)

@[simp] theorem solidByte_bit (solid : Bool) : (solidByte solid)[0] = solid := by cases solid <;> rfl

@[simp] theorem toNat_solidByte_le (solid : Bool) : (solidByte solid).toNat ≤ 1 := by cases solid <;> decide

/-- A byte of 0 or 1 is the field of its solid bit. -/
theorem solidByte_of_le_one : ∀ {a : Byte}, a.toNat ≤ 1 → solidByte (a.getLsbD 0) = a := by decide

/-- The border rows' mask of field A leaves the solid bit free and no other. -/
theorem solidByte_of_masked : ∀ {a : Byte}, a &&& 0xFE#8 = 0#8 → solidByte (a.getLsbD 0) = a := by decide

/-! ### Decoding and encoding undo each other -/

theorem ifReservedZero_eq_ok {op : Byte} {z : Bool} {i j : Instr} : ifReservedZero op z i = .ok j ↔ z = true ∧ i = j := by
  cases z <;> simp [ifReservedZero]

/-- Decoding the word of a well-formed command gives the command back. -/
theorem decode_encode {i : Instr} (hi : i.WellFormed) : decode (encode i) = .ok i := by
  cases i with
  | drawPixel | drawSquare | drawString | displayMessage =>
    simp only [Instr.WellFormed, Instr.wellFormed, Bool.and_eq_true] at hi
    simp [encode, decode_wordOf, decodeFields, ifReservedZero_eq_ok, toNat_operandByte, hi]
  | init | clear | drawBorder | setBorder | update => simp [encode, decode_wordOf, decodeFields, ifReservedZero_eq_ok]

theorem encode_of_decodeFields {op a b c d : Byte} {i : Instr} (h : decodeFields op a b c d = .ok i) :
    encode i = wordOf op a b c d := by
  unfold decodeFields at h
  split at h
  all_goals simp only [ifReservedZero_eq_ok, Bool.and_eq_true, beq_iff_eq, decide_eq_true_eq, Except.ok.injEq, reduceCtorEq] at h
  case h_1 hop =>
    obtain ⟨⟨⟨rfl, rfl⟩, rfl⟩, rfl⟩ := h
    exact wordOf_inj.2 ⟨BitVec.eq_of_toNat_eq hop.symm, rfl, rfl, rfl, rfl⟩
  case h_3 hop | h_7 hop =>
    obtain ⟨rfl, rfl⟩ := h
    exact wordOf_inj.2 ⟨BitVec.eq_of_toNat_eq hop.symm, operandByte_toNat a, operandByte_toNat b, by simp, rfl⟩
  case h_4 hop =>
    obtain rfl := h
    exact wordOf_inj.2 ⟨BitVec.eq_of_toNat_eq hop.symm, operandByte_toNat a, operandByte_toNat b, operandByte_toNat c,
      operandByte_toNat d⟩
  case h_5 hop | h_6 hop =>
    obtain ⟨⟨⟨⟨ha, rfl⟩, rfl⟩, rfl⟩, rfl⟩ := h
    exact wordOf_inj.2 ⟨BitVec.eq_of_toNat_eq hop.symm, solidByte_of_le_one ha, rfl, rfl, rfl⟩
  case h_8 hop =>
    obtain ⟨⟨⟨rfl, rfl⟩, rfl⟩, rfl⟩ := h
    exact wordOf_inj.2 ⟨BitVec.eq_of_toNat_eq hop.symm, operandByte_toNat a, rfl, rfl, rfl⟩
  case h_2 hop | h_9 hop =>
    obtain ⟨⟨⟨⟨rfl, rfl⟩, rfl⟩, rfl⟩, rfl⟩ := h
    exact wordOf_inj.2 ⟨BitVec.eq_of_toNat_eq hop.symm, rfl, rfl, rfl, rfl⟩

/-- A word that decodes is the word of the command it decodes to. -/
theorem encode_of_decode {w : CommandWord} {i : Instr} (h : decode w = .ok i) : encode i = w :=
  (encode_of_decodeFields h).trans (wordOf_fields w)

/-- Settles O2: each operand is read back from the field it was put in. -/
theorem decodeEncodeRoundTrip : Obligations.DecodeEncodeRoundTrip := fun _ => decode_encode

/-- Settles O3. -/
theorem encodeDecodeRoundTrip : Obligations.EncodeDecodeRoundTrip := fun _ _ h => ⟨wellFormed_of_decode h, encode_of_decode h⟩

/-- Settles O1: each written-out word is the word of the command it stands for. -/
theorem writtenOutWordsDecode : Obligations.WrittenOutWordsDecode :=
  ⟨decode_encode (i := .init 7#8) rfl, decode_encode (i := .clear) rfl, decode_encode (i := .drawPixel 10 20 1#8) rfl,
    decode_encode (i := .drawSquare 60 28 8 8) rfl, decode_encode (i := .drawBorder true) rfl,
    decode_encode (i := .setBorder false) rfl, decode_encode (i := .drawString 200 100 255) rfl,
    decode_encode (i := .displayMessage 12) rfl, decode_encode (i := .update) rfl⟩

/-! ### The rows of the opcode table -/

theorem tableRow_mem_opcodeTable (i : Instr) : tableRow i ∈ opcodeTable := by cases i <;> simp [opcodeTable, tableRow]

theorem exists_tableRow_of_mem {r : OpcodeRow} (h : r ∈ opcodeTable) : ∃ i, tableRow i = r := by
  have hmap : opcodeTable = [Instr.init 0#8, .clear, .drawPixel 0 0 0#8, .drawSquare 0 0 0 0, .drawBorder false, .setBorder false,
    .drawString 0 0 0, .displayMessage 0, .update].map tableRow := rfl
  obtain ⟨i, -, hi⟩ := List.mem_map.1 (hmap ▸ h)
  exact ⟨i, hi⟩

theorem nodup_opcodeTable : opcodeTable.Nodup := by decide

/-- A command's word matches the command's row. -/
theorem matchesWord_encode (i : Instr) : (tableRow i).matchesWord (encode i) = true := by
  cases i with
  | init h => exact Laws.TableRow.init h
  | clear => exact Laws.TableRow.clear
  | drawPixel x y color => exact Laws.TableRow.drawPixel x y color
  | drawSquare x y width height => exact Laws.TableRow.drawSquare x y width height
  | drawBorder solid => exact Laws.TableRow.drawBorder solid
  | setBorder solid => exact Laws.TableRow.setBorder solid
  | drawString x y n => exact Laws.TableRow.drawString x y n
  | displayMessage n => exact Laws.TableRow.displayMessage n
  | update => exact Laws.TableRow.update

/-- A word that matches a row has the row's bits in each field. -/
theorem fields_of_matchesWord {r : OpcodeRow} {op a b c d : Byte} (h : r.matchesWord (wordOf op a b c d) = true) :
    op &&& fieldOP r.mask = fieldOP r.pattern ∧ a &&& fieldA r.mask = fieldA r.pattern ∧ b &&& fieldB r.mask = fieldB r.pattern ∧
      c &&& fieldC r.mask = fieldC r.pattern ∧ d &&& fieldD r.mask = fieldD r.pattern := by
  have hmask : wordOf op a b c d &&& r.mask = r.pattern := beq_iff_eq.1 h
  simp [← hmask, fieldOP_and, fieldA_and, fieldB_and, fieldC_and, fieldD_and]

/-- Every word of a row is the word of a well-formed command of that row. -/
theorem exists_encode_of_matchesWord {i : Instr} {w : CommandWord} (h : (tableRow i).matchesWord w = true) :
    ∃ j : Instr, j.WellFormed ∧ tableRow j = tableRow i ∧ encode j = w := by
  rw [← wordOf_fields w] at h ⊢
  generalize fieldOP w = op, fieldA w = a, fieldB w = b, fieldC w = c, fieldD w = d at *
  cases i
  -- The row becomes its literals first: the fields of a literal word are evaluated, those of a row with an operand in it are not.
  all_goals
    have hfields := fields_of_matchesWord h
    simp only [tableRow] at hfields
    simp only [fieldOP, fieldA, fieldB, fieldC, fieldD, BitVec.reduceExtractLsb', and_ones, and_zeros, true_and, and_true] at hfields
  case init =>
    obtain ⟨rfl, rfl, rfl, rfl⟩ := hfields
    exact ⟨.init a, rfl, rfl, rfl⟩
  case clear =>
    obtain ⟨rfl, rfl, rfl, rfl, rfl⟩ := hfields
    exact ⟨.clear, rfl, rfl, rfl⟩
  case drawPixel =>
    obtain ⟨rfl, rfl⟩ := hfields
    exact ⟨.drawPixel a.toNat b.toNat c, by simp [Instr.WellFormed, Instr.wellFormed], rfl, by simp [encode]⟩
  case drawSquare =>
    obtain rfl := hfields
    exact ⟨.drawSquare a.toNat b.toNat c.toNat d.toNat, by simp [Instr.WellFormed, Instr.wellFormed], rfl, by simp [encode]⟩
  case drawBorder =>
    obtain ⟨rfl, ha, rfl, rfl, rfl⟩ := hfields
    exact ⟨.drawBorder (a.getLsbD 0), rfl, rfl, by rw [encode, solidByte_of_masked ha]⟩
  case setBorder =>
    obtain ⟨rfl, ha, rfl, rfl, rfl⟩ := hfields
    exact ⟨.setBorder (a.getLsbD 0), rfl, rfl, by rw [encode, solidByte_of_masked ha]⟩
  case drawString =>
    obtain ⟨rfl, rfl⟩ := hfields
    exact ⟨.drawString a.toNat b.toNat c.toNat, by simp [Instr.WellFormed, Instr.wellFormed], rfl, by simp [encode]⟩
  case displayMessage =>
    obtain ⟨rfl, rfl, rfl, rfl⟩ := hfields
    exact ⟨.displayMessage a.toNat, by simp [Instr.WellFormed, Instr.wellFormed], rfl, by simp [encode]⟩
  case update =>
    obtain ⟨rfl, rfl, rfl, rfl, rfl⟩ := hfields
    exact ⟨.update, rfl, rfl, rfl⟩

/-- A word decodes to a command of any row it matches. -/
theorem decode_of_matchesWord {r : OpcodeRow} {w : CommandWord} (hr : r ∈ opcodeTable) (h : r.matchesWord w = true) :
    ∃ i, decode w = .ok i ∧ tableRow i = r := by
  obtain ⟨i, rfl⟩ := exists_tableRow_of_mem hr
  obtain ⟨j, hj, hrow, rfl⟩ := exists_encode_of_matchesWord h
  exact ⟨j, decode_encode hj, hrow⟩

/-- Two rows that match one word are the row of the command it decodes to. -/
theorem eq_of_matchesWord {r r' : OpcodeRow} {w : CommandWord} (hr : r ∈ opcodeTable) (h : r.matchesWord w = true)
    (hr' : r' ∈ opcodeTable) (h' : r'.matchesWord w = true) : r = r' := by
  obtain ⟨i, hi, rfl⟩ := decode_of_matchesWord hr h
  obtain ⟨j, hj, rfl⟩ := decode_of_matchesWord hr' h'
  rw [Except.ok.inj (hi.symm.trans hj)]

/-- No word matches two rows: the table lists no row twice. -/
theorem length_matching_rows_le_one (w : CommandWord) : (opcodeTable.filter fun r => r.matchesWord w).length ≤ 1 := by
  cases hrows : opcodeTable.filter fun r => r.matchesWord w with
  | nil => exact Nat.zero_le 1
  | cons r rest =>
    have hmem : ∀ {q}, q ∈ r :: rest → q ∈ opcodeTable ∧ q.matchesWord w = true := fun hq => List.mem_filter.1 (hrows ▸ hq)
    have hsub : r :: rest ⊆ [r] := fun q hq =>
      List.mem_singleton.2 (eq_of_matchesWord (hmem hq).1 (hmem hq).2 (hmem List.mem_cons_self).1 (hmem List.mem_cons_self).2)
    exact ((hrows ▸ nodup_opcodeTable.filter _).subperm hsub).length_le

theorem matchesWord_of_decode {w : CommandWord} {i : Instr} (h : decode w = .ok i) : (tableRow i).matchesWord w = true :=
  encode_of_decode h ▸ matchesWord_encode i

/-- Settles O4: a word that matches a row is the word of a well-formed command of that row, which is what it decodes to; so a word
matches at most one row, and none if it does not decode. -/
theorem decodesExactlyTheTableRows : Obligations.DecodesExactlyTheTableRows := by
  refine fun w => ⟨fun i h => ⟨tableRow_mem_opcodeTable i, matchesWord_of_decode h, encode_of_decode h⟩,
    fun r => decode_of_matchesWord, fun hnone => ?_, length_matching_rows_le_one w⟩
  cases h : decode w with
  | error e => exact ⟨e, rfl⟩
  | ok i => exact absurd (matchesWord_of_decode h) (by simp [hnone _ (tableRow_mem_opcodeTable i)])

end Sys2Proof.Machine
end

section
/-! SUPPORT. Answered commands in sequence: running a composition's pseudocode is issuing its parts one after another
(30_encoding.md R82; 43_shapes.md R130; 44_text_stubs.md R139). -/

namespace Sys2Proof.Machine

/-- The idle block after steps whose transfers were all answered. -/
def afterSteps (steps : List Action) (s : State) : State :=
  { applyAll steps s with answers := s.answers.drop (transferCount steps), seq := .idle }

/-- A command with every transfer answered leads to the state after its pseudocode. -/
theorem exec_eq_afterSteps {i : Instr} {s : State} (hs : s.Ready) (ha : s.Answers (transferCount (stepsOf i))) :
    exec i s = .next (afterSteps (stepsOf i) s) := exec_done hs.1 (.inr hs.2) ha

theorem applyAll_setAnswers_idle (l : List Action) (s : State) (as : List Answer) :
    applyAll l { s with answers := as, seq := .idle } = { applyAll l s with answers := as, seq := .idle } := by
  rw [applyAll_setSeq l { s with answers := as }, applyAll_setAnswers]

theorem afterSteps_append (l₁ l₂ : List Action) (s : State) : afterSteps (l₁ ++ l₂) s = afterSteps l₂ (afterSteps l₁ s) := by
  unfold afterSteps
  rw [applyAll_setAnswers_idle, applyAll_append, transferCount_append, ← List.drop_drop]

theorem afterSteps_ready (steps : List Action) {s : State} (hs : s.Ready) : (afterSteps steps s).Ready := by
  refine ⟨rfl, show (applyAll steps s).bus.isSome = true from ?_⟩
  rcases applyAll_bus steps s with hbus | ⟨h, -, hbus⟩
  · rw [hbus, hs.2]
  · rw [hbus]; rfl

/-- The answers left after steps are those of the transfers that follow. -/
theorem afterSteps_answers {steps : List Action} {n : Nat} {s : State} (ha : s.Answers (transferCount steps + n)) :
    (afterSteps steps s).Answers n := by
  intro a hmem
  have hdrop : a ∈ (s.answers.drop (transferCount steps)).take n := hmem
  rw [List.take_drop] at hdrop
  exact ha a (List.mem_of_mem_drop hdrop)

/-- A command whose pseudocode is that of three others in order, with every transfer answered, leads where the three lead. -/
theorem exec_eq_of_stepsOf_append {i j k l : Instr} (hsteps : stepsOf l = stepsOf i ++ (stepsOf j ++ stepsOf k)) {s : State}
    (hs : s.Ready) (ha : s.Answers (transferCount (stepsOf l))) :
    ∃ a b c, exec i s = .next a ∧ exec j a = .next b ∧ exec k b = .next c ∧ exec l s = .next c := by
  have hl := exec_eq_afterSteps hs ha
  rw [hsteps, afterSteps_append, afterSteps_append] at hl
  rw [hsteps, transferCount_append, transferCount_append] at ha
  have hready := afterSteps_ready (stepsOf i) hs
  have hanswers := afterSteps_answers ha
  exact ⟨_, _, _, exec_eq_afterSteps hs (answers_mono (Nat.le_add_right _ _) ha),
    exec_eq_afterSteps hready (answers_mono (Nat.le_add_right _ _) hanswers),
    exec_eq_afterSteps (afterSteps_ready _ hready) (afterSteps_answers hanswers), hl⟩

/-- Settles O45: the pseudocode of each composition is that of its parts in order. -/
theorem compositionsEqualTheirParts : Obligations.CompositionsEqualTheirParts :=
  ⟨fun solid s hs ha => exec_eq_of_stepsOf_append (l := .setBorder solid) rfl hs (by rwa [transferCount_stepsOf]),
    fun n s hs ha => exec_eq_of_stepsOf_append (l := .displayMessage n) rfl hs (by rwa [transferCount_stepsOf])⟩

end Sys2Proof.Machine
end

section
/-! SUPPORT. The framebuffer's lifecycle: INIT and CLEAR with every transfer answered, an INIT that waits, and the loop of zero
writes (41_init_clear.md R101 to R108). -/

namespace Sys2Proof.Machine

/-! ### INIT with every transfer answered -/

/-- INIT with its 48 transfers answered, from any idle block: its whole effect (41_init_clear.md R101, R102). -/
theorem exec_init_done (h : BusHandle) {s : State} (hs : s.seq = .idle) (ha : s.Answers 48) : exec (.init h) s =
    .next { s with bus := some h, fb := Memory.zero,
                   log := s.log ++ (initTransfers (some h) ++ fullUpdate (some h) Memory.zero),
                   answers := s.answers.drop 48, seq := .idle } := by
  have hcount : transferCount (stepsOf (.init h)) = 48 := transferCount_stepsOf (.init h)
  have heffect := applyAll_initSteps h s
  rw [List.append_assoc] at heffect
  rw [exec_done hs (.inl rfl) (by rwa [hcount]), hcount, stepsOf, heffect]

/-- Settles O19: a block with a bus bound and one with none are the same to INIT. -/
theorem initBindsSendsZeroesAndUpdates : Obligations.InitBindsSendsZeroesAndUpdates :=
  fun h _ hs ha => ⟨_, exec_init_done h hs ha, rfl, Memory.read_zero, rfl, rfl, rfl, rfl, rfl, rfl⟩

@[simp] theorem initTransfers_length (bus : Option BusHandle) : (initTransfers bus).length = 16 := rfl

theorem fullUpdate_getElem? (bus : Option BusHandle) (m : Memory) {t : Nat} (ht : t < 32) :
    (fullUpdate bus m)[t]? = some { bus := bus, addr := 0x3C#7, bytes := updateFrame m t } := by
  rw [fullUpdate, List.getElem?_map, List.getElem?_range ht, Option.map_some]

/-- Every data frame of the zero framebuffer carries 128 zeros (45_page_serializer.md R144). -/
theorem updateFrame_zero_data (p : Nat) : updateFrame Memory.zero (4 * p + 3) = 0x40#8 :: List.replicate 128 0x00#8 := by
  have hmod : (4 * p + 3) % 4 = 3 := by omega
  simp only [updateFrame, hmod, Memory.zero, Memory.lookup_nil, List.map_const', List.length_range]

/-- Settles O20: the update that ends INIT, behind the sixteen init transfers, is that of the zero framebuffer. -/
theorem afterInitFramebufferIsZero : Obligations.AfterInitFramebufferIsZero := by
  intro h s hs ha
  refine ⟨_, exec_init_done h hs ha, Memory.read_zero, fun p hp => ?_⟩
  have hinit : (initTransfers (some h)).length ≤ 16 + (4 * p + 3) := Nat.le_add_right 16 _
  rw [List.getElem?_append_right (Nat.le_add_right _ _), Nat.add_sub_cancel_left, List.getElem?_append_right hinit,
    initTransfers_length, Nat.add_sub_cancel_left, fullUpdate_getElem? _ _ (by omega), updateFrame_zero_data]

/-! ### The transfers of INIT are on its bus -/

/-- A step of INIT's pseudocode, once the bus is bound, keeps it bound and logs on it alone. -/
theorem Action.apply_onBus {h : BusHandle} {a : Action} (ha : a.Permitted (.init h)) {s : State} (hs : s.bus = some h) :
    (a.apply s).bus = some h ∧ ∃ new, (a.apply s).log = s.log ++ new ∧ ∀ tr ∈ new, tr.bus = some h := by
  cases a with
  | bindBus b =>
    cases ha
    exact ⟨rfl, [], (List.append_nil _).symm, by simp⟩
  | sendCmd c params => exact ⟨hs, _, rfl, by simpa using hs⟩
  | sendData p => exact ⟨hs, _, rfl, by simpa using hs⟩
  | _ => exact ⟨hs, [], (List.append_nil _).symm, by simp⟩

theorem applyAll_onBus {h : BusHandle} {l : List Action} (hl : ∀ a ∈ l, a.Permitted (.init h)) {s : State} (hs : s.bus = some h) :
    (applyAll l s).bus = some h ∧ ∃ new, (applyAll l s).log = s.log ++ new ∧ new.length = transferCount l ∧
      ∀ tr ∈ new, tr.bus = some h := by
  suffices hnew : (applyAll l s).bus = some h ∧ ∃ new, (applyAll l s).log = s.log ++ new ∧ ∀ tr ∈ new, tr.bus = some h by
    obtain ⟨hbus, new, hlog, hon⟩ := hnew
    have hlen := applyAll_log_length l s
    rw [hlog, List.length_append] at hlen
    exact ⟨hbus, new, hlog, Nat.add_left_cancel hlen, hon⟩
  induction l generalizing s with
  | nil => exact ⟨hs, [], (List.append_nil _).symm, by simp⟩
  | cons a l ih =>
    obtain ⟨hbus, new, hlog, hon⟩ := Action.apply_onBus (hl a List.mem_cons_self) hs
    obtain ⟨hbus', new', hlog', hon'⟩ := ih (fun b hb => hl b (List.mem_cons_of_mem a hb)) hbus
    exact ⟨hbus', new ++ new', by rw [applyAll_cons, hlog', hlog, List.append_assoc],
      fun tr htr => (List.mem_append.1 htr).elim (hon tr) (hon' tr)⟩

/-- The steps of INIT after the binding hold all its transfers. -/
theorem transferCount_init_bound (h : BusHandle) : transferCount ((stepsOf (.init h)).drop 1) = 48 := by
  have hsteps : (stepsOf (.init h)).drop 1 = initSeqSteps ++ clearProc := rfl
  have hinit : transferCount initSeqSteps = 16 := by decide
  rw [hsteps, transferCount_append, hinit, transferCount_clearProc]

/-- Settles O21: once `BUS <- h` is done, the other steps of INIT log on bus `h`, to the end or to the transfer that hangs. -/
theorem initBindsBusBeforeItsFirstTransfer : Obligations.InitBindsBusBeforeItsFirstTransfer := by
  intro h s hs
  have hpermitted : ∀ a ∈ (stepsOf (.init h)).drop 1, a.Permitted (.init h) :=
    fun a ha => permitted_of_mem_stepsOf (List.mem_of_mem_drop ha)
  have hcount := transferCount_init_bound h
  constructor
  · intro ha
    obtain ⟨-, new, hlog, hlen, hon⟩ := applyAll_onBus hpermitted
      (s := { s with seq := .busy (.init h) .start, bus := some h }) rfl
    have hrun := exec_init_runs h hs
    rw [runSteps_done _ _ _ _ (by rwa [hcount])] at hrun
    exact ⟨_, new, hrun, hlog, hlen.trans hcount, hon⟩
  · intro pre post hans hpre hlt
    obtain ⟨before, a, after, hsteps, ha, hbefore, hwait⟩ := runSteps_wait (.init h) ((stepsOf (.init h)).drop 1) 1
      { s with seq := .busy (.init h) .start, bus := some h } pre post hans hpre (by rwa [hcount])
    have hdone : before ++ [a] ⊆ (stepsOf (.init h)).drop 1 := by
      rw [hsteps, List.append_cons before a after]
      exact List.subset_append_left _ _
    obtain ⟨hbus, new, hlog, hlen, hon⟩ := applyAll_onBus (fun b hb => hpermitted b (hdone hb))
      (s := { s with seq := .busy (.init h) .start, bus := some h }) rfl
    rw [transferCount_append, hbefore, transferCount_cons, ha] at hlen
    exact ⟨_, _, new, (exec_init_runs h hs).trans (congrArg _ hwait), hbus, rfl, hlog, hlen, hon,
      fun n => unansweredTransferHangs n _ _ _ post rfl rfl rfl⟩

/-! ### CLEAR -/

/-- CLEAR with its 32 transfers answered: its whole effect (41_init_clear.md R106, R107). -/
theorem exec_clear_done {s : State} (hs : s.Ready) (ha : s.Answers 32) : exec .clear s =
    .next { s with fb := Memory.zero, log := s.log ++ fullUpdate s.bus Memory.zero, answers := s.answers.drop 32,
                   seq := .idle } := by
  have hcount : transferCount (stepsOf .clear) = 32 := transferCount_stepsOf .clear
  rw [exec_done hs.1 (.inr hs.2) (by rwa [hcount]), hcount, stepsOf, clearSteps, applyAll_clearProc]

/-- Settles O23: the update that ends CLEAR sends the framebuffer just zeroed, whatever it held. -/
theorem clearZeroesAndSends : Obligations.ClearZeroesAndSends :=
  fun _ hs ha => ⟨_, exec_clear_done hs ha, Memory.read_zero, rfl, rfl, rfl, rfl, rfl, rfl, rfl⟩

@[simp] theorem fullUpdate_length (bus : Option BusHandle) (m : Memory) : (fullUpdate bus m).length = 32 := by
  rw [fullUpdate, List.length_map, List.length_range]

/-- Settles O24: both CLEARs leave the zero framebuffer, and each logs its own update. -/
theorem clearTwiceIsClearOnce : Obligations.ClearTwiceIsClearOnce := by
  intro s hs ha
  have hfirst := exec_clear_done hs (answers_mono (by decide) ha)
  have hrest : ∀ a ∈ (s.answers.drop 32).take 32, a.isPending = false := by
    rw [List.take_drop]
    exact fun a hmem => ha a (List.mem_of_mem_drop hmem)
  have hsecond := exec_clear_done (s := { s with
    fb := Memory.zero, log := s.log ++ fullUpdate s.bus Memory.zero, answers := s.answers.drop 32, seq := .idle })
    ⟨rfl, hs.2⟩ hrest
  exact ⟨_, _, hfirst, hsecond, rfl, by simp, by simp⟩

/-! ### Zeroing byte by byte -/

/-- The framebuffer after `FB[i] <- 0x00` at each index of the list in turn. -/
def zeroBytes (l : List FbIndex) (m : Memory) : Memory := l.foldl (fun m i => m.write i 0x00#8) m

theorem wf_zeroBytes (l : List FbIndex) {m : Memory} (hm : m.wf = true) : (zeroBytes l m).wf = true := by
  induction l generalizing m with
  | nil => exact hm
  | cons i l ih => exact ih (Memory.wf_write hm i 0x00#8)

/-- The bytes of the list read as zero, every other byte keeps its value. -/
theorem read_zeroBytes (l : List FbIndex) {m : Memory} (hm : m.wf = true) (j : FbIndex) :
    (zeroBytes l m).read j = if j ∈ l then 0x00#8 else m.read j := by
  induction l generalizing m with
  | nil => simp [zeroBytes]
  | cons i l ih =>
    have hstep : zeroBytes (i :: l) m = zeroBytes l (m.write i 0x00#8) := rfl
    rw [hstep, ih (Memory.wf_write hm i 0x00#8), Memory.read_write hm]
    by_cases hj : j = i <;> simp [hj]

/-- Settles O25: the loop leaves a canonical framebuffer whose every byte reads as zero, and there is only one. -/
theorem zeroingIsTheByteLoop : Obligations.ZeroingIsTheByteLoop := by
  intro m hm
  have hread : ∀ j, (zeroBytes (List.finRange Config.fbBytes) m).read j = Memory.zero.read j := fun j =>
    (read_zeroBytes _ hm j).trans (if_pos (List.mem_finRange j))
  have hzero : zeroBytes (List.finRange Config.fbBytes) m = Memory.zero :=
    Memory.eq_of_read (wf_zeroBytes _ hm) Memory.wf_zero hread
  exact hzero

end Sys2Proof.Machine
end

section
/-! SUPPORT. DRAW_PIXEL: its whole effect at a ready block is one `PixelWrite` (42_pixel_writer.md R113), and the algebra of
`PixelWrite` is read off the pixels, which determine a canonical framebuffer (20_memory.md R50). -/

namespace Sys2Proof.Machine

/-! ### The algebra of `PixelWrite` -/

/-- A canonical framebuffer is its pixels: every bit of every byte is one (20_memory.md R50). -/
theorem Memory.eq_of_pixel {m n : Memory} (hm : m.wf = true) (hn : n.wf = true) (h : ∀ px py, m.pixel px py = n.pixel px py) :
    m = n := by
  refine Memory.eq_of_read hm hn fun i => BitVec.eq_of_getLsbD_eq fun k hk => ?_
  obtain ⟨hcol, hrow⟩ := pixelMapIsABijection.2.1 i k hk
  obtain ⟨hindex, hbit⟩ := (pixelMapIsABijection.1 i k hk ⟨i.val % 128, hcol⟩ ⟨i.val / 128 * 8 + k, hrow⟩).2 ⟨rfl, rfl⟩
  have hpixel := h ⟨i.val % 128, hcol⟩ ⟨i.val / 128 * 8 + k, hrow⟩
  rwa [Memory.pixel, Memory.pixel, hindex, hbit] at hpixel

/-- Writing the value a pixel has changes nothing. -/
theorem Memory.pixelWrite_pixel {m : Memory} (hm : m.wf = true) (x : Fin Config.width) (y : Fin Config.height) :
    m.pixelWrite x y (m.pixel x y) = m := by
  refine Memory.eq_of_pixel (Memory.wf_pixelWrite hm _ _ _) hm fun px py => ?_
  rw [Memory.pixel_pixelWrite hm]
  split
  · next h => rw [Fin.ext h.1, Fin.ext h.2]
  · rfl

/-- Of two writes to one pixel the later one decides. -/
theorem Memory.pixelWrite_pixelWrite_same {m : Memory} (hm : m.wf = true) (x y : Nat) (on on' : Bool) :
    (m.pixelWrite x y on).pixelWrite x y on' = m.pixelWrite x y on' := by
  have hwf := Memory.wf_pixelWrite hm x y
  refine Memory.eq_of_pixel (Memory.wf_pixelWrite (hwf on) x y on') (hwf on') fun px py => ?_
  rw [Memory.pixel_pixelWrite (hwf on), Memory.pixel_pixelWrite hm, Memory.pixel_pixelWrite hm]
  split <;> rfl

/-- Writes to different pixels commute, the two of one byte included. -/
theorem Memory.pixelWrite_comm {m : Memory} (hm : m.wf = true) {x y x' y' : Nat} (hne : (x, y) ≠ (x', y')) (on on' : Bool) :
    (m.pixelWrite x y on).pixelWrite x' y' on' = (m.pixelWrite x' y' on').pixelWrite x y on := by
  have hwf := Memory.wf_pixelWrite hm
  refine Memory.eq_of_pixel (Memory.wf_pixelWrite (hwf x y on) x' y' on') (Memory.wf_pixelWrite (hwf x' y' on') x y on)
    fun px py => ?_
  rw [Memory.pixel_pixelWrite (hwf x y on), Memory.pixel_pixelWrite (hwf x' y' on'), Memory.pixel_pixelWrite hm,
    Memory.pixel_pixelWrite hm]
  by_cases h : px.val = x ∧ py.val = y
  · have h' : ¬ (px.val = x' ∧ py.val = y') := fun h' => hne (by rw [← h.1, ← h.2, h'.1, h'.2])
    rw [if_neg h', if_pos h, if_pos h]
  · rw [if_neg h, if_neg h]

/-- An in-bounds write is a read-modify-write of the pixel's byte, and no other byte changes (42_pixel_writer.md R111). -/
theorem Memory.read_pixelWrite {m : Memory} (hm : m.wf = true) {x y : Nat} (hx : x < 128) (hy : y < 64) (on : Bool) (i : FbIndex) :
    (m.pixelWrite x y on).read i =
      if i.val = y / 8 * 128 + x then if on then m.read i ||| pixelMask y else m.read i &&& ~~~pixelMask y else m.read i := by
  rw [Memory.pixelWrite_in ⟨hx, hy⟩, Memory.read_write hm]
  have hindex : i.val = y / 8 * 128 + x ↔ i = pixelIndex ⟨x, hx⟩ ⟨y, hy⟩ := by rw [Fin.ext_iff, Memory.pixelIndex_val]
  simp only [hindex]
  split
  · next hi => rw [hi]
  · rfl

/-! ### DRAW_PIXEL -/

theorem truthy_iff {c : Byte} : truthy c = true ↔ c ≠ 0x00#8 := bne_iff_ne

/-- DRAW_PIXEL at a ready block: its whole effect is one `PixelWrite` (42_pixel_writer.md R113, R114). -/
theorem exec_drawPixel (x y : Nat) (c : Byte) {s : State} (hs : s.Ready) :
    exec (.drawPixel x y c) s = .next { s with fb := s.fb.pixelWrite x y (truthy c) } := by
  have hnone : s.Answers 0 := by simp [State.Answers]
  have hdone := exec_done (i := .drawPixel x y c) hs.1 (.inr hs.2) hnone
  rw [← hs.1] at hdone
  exact hdone

/-- DRAW_PIXEL whose `PixelWrite` leaves the framebuffer leaves the block. -/
theorem exec_drawPixel_of_unchanged {x y : Nat} {c : Byte} {s : State} (hs : s.Ready)
    (hfb : s.fb.pixelWrite x y (truthy c) = s.fb) : exec (.drawPixel x y c) s = .next s := by
  rw [exec_drawPixel x y c hs, hfb]

/-- Settles O27: DRAW_PIXEL is one `PixelWrite`, which changes one bit of one byte. -/
theorem drawPixelWritesOneBit : Obligations.DrawPixelWritesOneBit := by
  intro x y c s hx hy hs hwf
  refine ⟨_, exec_drawPixel x y c hs, fun i => ?_, rfl, rfl, hs.1, rfl, rfl, rfl, rfl⟩
  simp only [Memory.read_pixelWrite hwf hx hy, truthy_iff]
  rfl

/-- Settles O29: DRAW_PIXEL depends on the color only through its truth. -/
theorem anyNonzeroColorSets : Obligations.AnyNonzeroColorSets := by
  intro x y s hs
  refine ⟨fun c hc => ?_, fun hx hy hwf => ?_⟩
  · have htruthy : truthy c = truthy 1#8 := truthy_iff.2 hc
    rw [exec_drawPixel x y c hs, exec_drawPixel x y 1#8 hs, htruthy]
  · have hpixel : ∀ on, (s.fb.pixelWrite x y on).pixel ⟨x, hx⟩ ⟨y, hy⟩ = on := fun on =>
      (Memory.pixel_pixelWrite hwf x y on _ _).trans (if_pos ⟨rfl, rfl⟩)
    exact ⟨⟨_, exec_drawPixel x y 1#8 hs, hpixel true⟩, _, exec_drawPixel x y 0x00#8 hs, hpixel false⟩

/-- Settles O30: the laws of `PixelWrite` carry over, since DRAW_PIXEL leaves a ready block ready. -/
theorem drawPixelIdempotentAndCommuting : Obligations.DrawPixelIdempotentAndCommuting := by
  intro s x y x' y' c c' hs hwf
  have hready : ∀ m : Memory, State.Ready { s with fb := m } := fun _ => hs
  have hlater : ∀ d : Byte, exec (.drawPixel x y d) { s with fb := s.fb.pixelWrite x y (truthy c) } =
      .next { s with fb := s.fb.pixelWrite x y (truthy d) } := fun d => by
    rw [exec_drawPixel x y d (hready _), Memory.pixelWrite_pixelWrite_same hwf]
  refine ⟨fun hx hy hpixel => ?_, ?_, fun hne => ?_, ?_⟩
  · exact exec_drawPixel_of_unchanged hs (hpixel ▸ Memory.pixelWrite_pixel hwf ⟨x, hx⟩ ⟨y, hy⟩)
  · exact ⟨_, exec_drawPixel x y c hs, hlater c⟩
  · refine ⟨_, _, _, exec_drawPixel x y c hs, exec_drawPixel x' y' c' (hready _), exec_drawPixel x' y' c' hs, ?_⟩
    rw [exec_drawPixel x y c (hready _), Memory.pixelWrite_comm hwf hne]
  · exact ⟨_, _, exec_drawPixel x y c hs, hlater c', exec_drawPixel x y c' hs⟩

/-! ### Clipping -/

/-- Settles O28: `PixelWrite` drops an out-of-bounds pixel. -/
theorem clippedPixelChangesNothing : Obligations.ClippedPixelChangesNothing := by
  intro x y hout
  have hclipped : ¬ InBounds x y := fun h => hout.elim (Nat.not_le_of_lt h.1) (Nat.not_le_of_lt h.2)
  exact ⟨Memory.pixelWrite_out hclipped, fun c s hs => exec_drawPixel_of_unchanged hs (Memory.pixelWrite_out hclipped s.fb _)⟩

/-- Settles O31: the corners by computing their byte and bit, the values past the edges as clipped pixels. -/
theorem edgePixels : Obligations.EdgePixels := by
  refine ⟨by decide, by decide, by decide, by decide, fun s x y c hs => ⟨?_, ?_, ?_⟩⟩
  · exact (clippedPixelChangesNothing 128 y (.inl le_rfl)).2 c s hs
  · exact (clippedPixelChangesNothing x 64 (.inr le_rfl)).2 c s hs
  · exact (clippedPixelChangesNothing 255 255 (.inl (by decide))).2 c s hs

end Sys2Proof.Machine
end

section
/-! SUPPORT. The shapes: the whole effect of DRAW_SQUARE, DRAW_BORDER and SET_BORDER with every transfer answered, and what setting
cells does to a byte of a page, read off its eight pixels (43_shapes.md R119 to R134; 20_memory.md R48, R49). -/

namespace Sys2Proof.Machine

/-! ### Whole effects -/

/-- A command of a ready block with every transfer of the cost table answered: its whole effect. -/
theorem exec_answered (i : Instr) {s : State} (hs : s.Ready) (ha : s.Answers (transfersOf i)) : exec i s =
    .next { applyAll (stepsOf i) s with answers := s.answers.drop (transfersOf i), seq := .idle } := by
  rw [exec_eq_afterSteps hs (by rwa [transferCount_stepsOf]), afterSteps, transferCount_stepsOf]

/-- DRAW_SQUARE with its 32 transfers answered: its whole effect (43_shapes.md R119). -/
theorem exec_drawSquare_done (x y width height : Nat) {s : State} (hs : s.Ready) (ha : s.Answers 32) :
    exec (.drawSquare x y width height) s =
      .next { s with fb := setPixels (rectCells x y width height) s.fb,
                     log := s.log ++ fullUpdate s.bus (setPixels (rectCells x y width height) s.fb),
                     answers := s.answers.drop 32, seq := .idle } := by
  rw [exec_answered (.drawSquare x y width height) hs ha, stepsOf, applyAll_drawSquareSteps, transfersOf]

/-- DRAW_BORDER at a ready block: its cells are set, and nothing else changes (43_shapes.md R124). -/
theorem exec_drawBorder (solid : Bool) {s : State} (hs : s.Ready) :
    exec (.drawBorder solid) s = .next { s with fb := setPixels (borderCells solid) s.fb } := by
  have hnone : s.Answers 0 := by simp [State.Answers]
  have hdone := exec_answered (.drawBorder solid) hs hnone
  rw [← hs.1, stepsOf, applyAll_drawBorderSteps] at hdone
  exact hdone

/-- SET_BORDER with its 64 transfers answered: its whole effect (43_shapes.md R130). -/
theorem exec_setBorder_done (solid : Bool) {s : State} (hs : s.Ready) (ha : s.Answers 64) : exec (.setBorder solid) s =
    .next { s with fb := setPixels (borderCells solid) Memory.zero,
                   log := s.log ++ (fullUpdate s.bus Memory.zero ++
                     fullUpdate s.bus (setPixels (borderCells solid) Memory.zero)),
                   answers := s.answers.drop 64, seq := .idle } := by
  rw [exec_answered (.setBorder solid) hs ha, stepsOf, applyAll_setBorderSteps, transfersOf, List.append_assoc]

/-- SET_BORDER leaves the border on a zero background, whatever it finds (43_shapes.md R132). -/
theorem afterSteps_setBorder_fb (solid : Bool) (s : State) :
    (afterSteps (stepsOf (.setBorder solid)) s).fb = setPixels (borderCells solid) Memory.zero := by
  rw [afterSteps, stepsOf, applyAll_setBorderSteps]

/-- Settles O41: the framebuffer each SET_BORDER leaves does not depend on the one it finds. -/
theorem setBorderTwiceIsSetBorderOnce : Obligations.SetBorderTwiceIsSetBorderOnce := by
  intro solid s hs ha
  have hcount : transferCount (stepsOf (.setBorder solid)) = 64 := transferCount_stepsOf (.setBorder solid)
  have hanswers : s.Answers (transferCount (stepsOf (.setBorder solid)) + 64) := by rwa [hcount]
  have hfirst := exec_eq_afterSteps hs (answers_mono (Nat.le_add_right _ _) hanswers)
  have hsecond := exec_eq_afterSteps (i := .setBorder solid) (afterSteps_ready _ hs)
    (by rw [hcount]; exact afterSteps_answers hanswers)
  exact ⟨_, _, hfirst, hsecond, (afterSteps_setBorder_fb solid _).trans (afterSteps_setBorder_fb solid s).symm⟩

/-! ### Setting cells -/

/-- Cells whose visible pixels are on already change nothing. -/
theorem setPixels_eq_self {m : Memory} (hm : m.wf = true) {cells : List (Nat × Nat)}
    (hon : ∀ (px : Fin Config.width) (py : Fin Config.height), (px.val, py.val) ∈ cells → m.pixel px py = true) :
    setPixels cells m = m := by
  refine Memory.eq_of_pixel (wf_setPixels hm cells) hm fun px py => ?_
  rw [pixel_setPixels hm]
  by_cases hmem : (px.val, py.val) ∈ cells
  · simp [hmem, hon px py hmem]
  · simp [hmem]

/-- Cells that are all clipped change nothing, in any framebuffer. -/
theorem setPixels_clipped {cells : List (Nat × Nat)} (hout : ∀ cell ∈ cells, ¬ InBounds cell.1 cell.2) (m : Memory) :
    setPixels cells m = m := by
  induction cells with
  | nil => rfl
  | cons cell cells ih =>
    have hstep : setPixels (cell :: cells) m = setPixels cells (m.pixelWrite cell.1 cell.2 true) := rfl
    rw [hstep, Memory.pixelWrite_out (hout cell List.mem_cons_self)]
    exact ih fun c hc => hout c (List.mem_cons_of_mem cell hc)

/-- The order in which cells are visited does not matter (43_shapes.md R120). -/
theorem setPixels_perm {m : Memory} (hm : m.wf = true) {cells cells' : List (Nat × Nat)} (hperm : cells.Perm cells') :
    setPixels cells m = setPixels cells' m := by
  refine Memory.eq_of_pixel (wf_setPixels hm _) (wf_setPixels hm _) fun px py => ?_
  rw [pixel_setPixels hm, pixel_setPixels hm]
  simp only [hperm.mem_iff]

/-- Row `k` of page `p` (20_memory.md R49). -/
def pageRow (p : Fin Config.pages) {k : Nat} (hk : k < 8) : Fin Config.height :=
  ⟨8 * p.val + k, by have := p.isLt; simp only [Config.pages, Config.height] at *; omega⟩

/-- Bit `k` of byte `c` of page `p` is the pixel in column `c` of the page's row `k` (20_memory.md R48, R49). -/
theorem Memory.getLsbD_read_sliceIndex (m : Memory) (p : Fin Config.pages) (c : Fin Config.width) {k : Nat} (hk : k < 8) :
    (m.read (sliceIndex p c)).getLsbD k = m.pixel c (pageRow p hk) := by
  have hindex : pixelIndex c (pageRow p hk) = sliceIndex p c := by
    have hpage : (8 * p.val + k) / 8 = p.val := by omega
    exact Fin.ext (congrArg (fun page => page * 128 + c.val) hpage)
  have hbit : pixelBit (pageRow p hk) = k := by
    have hrow : (8 * p.val + k) % 8 = k := by omega
    exact hrow
  rw [Memory.pixel, hindex, hbit]

/-- Setting cells ORs into each byte the mask whose bits are the cells in that byte. -/
theorem read_setPixels {m : Memory} (hm : m.wf = true) {cells : List (Nat × Nat)} (p : Fin Config.pages) (c : Fin Config.width)
    {mask : Byte} (hmask : ∀ k < 8, mask.getLsbD k = decide ((c.val, 8 * p.val + k) ∈ cells)) :
    (setPixels cells m).read (sliceIndex p c) = m.read (sliceIndex p c) ||| mask := by
  refine BitVec.eq_of_getLsbD_eq fun k hk => ?_
  rw [BitVec.getLsbD_or, Memory.getLsbD_read_sliceIndex _ p c hk, Memory.getLsbD_read_sliceIndex _ p c hk, pixel_setPixels hm,
    hmask k hk, Bool.or_comm]
  rfl

end Sys2Proof.Machine
end

section
/-! SUPPORT. DRAW_SQUARE: its cells are its rectangle, and their bits in a byte are the row mask of the closed form
(43_shapes.md R119 to R123). -/

namespace Sys2Proof.Machine

theorem decide_mem_rectCells (x y width height px py : Nat) :
    decide ((px, py) ∈ rectCells x y width height) = rectPixel x y width height px py := by
  simp only [mem_rectCells, Bool.decide_eq_true]

/-- Settles O32: setting the cells of the rectangle sets their pixels. -/
theorem drawSquareFillsTheRectangle : Obligations.DrawSquareFillsTheRectangle := by
  intro x y width height s hs hwf ha
  refine ⟨_, exec_drawSquare_done x y width height hs ha, fun px py => ?_, rfl, rfl, rfl, rfl, rfl, rfl, rfl⟩
  exact (pixel_setPixels hwf _ px py).trans (by rw [decide_mem_rectCells, Bool.or_comm, rectPixel])

/-- Settles O33: an empty rectangle has no cell, and a clipped one none in bounds. -/
theorem emptySquareStillUpdates : Obligations.EmptySquareStillUpdates := by
  intro x y width height s hs ha hempty
  have hout : ∀ cell ∈ rectCells x y width height, ¬ InBounds cell.1 cell.2 := by
    rintro ⟨px, py⟩ hmem ⟨hx, hy⟩
    simp only [mem_rectCells, rectPixel, decide_eq_true_eq, Config.width, Config.height] at hmem hx hy
    omega
  have hfb := setPixels_clipped hout s.fb
  have hdone := exec_drawSquare_done x y width height hs ha
  rw [hfb] at hdone
  exact ⟨_, hdone, rfl, rfl, fullUpdate_length _ _⟩

/-- The bits of a mask that ORs together the rows of a list. -/
theorem getLsbD_foldl_rows (rows : List Nat) (mask : Byte) (k : Nat) :
    (rows.foldl (fun m r => m ||| 1#8 <<< (r % 8)) mask).getLsbD k = (mask.getLsbD k || decide (∃ r ∈ rows, r % 8 = k)) := by
  induction rows generalizing mask with
  | nil => simp
  | cons r rows ih =>
    have hrow : (1#8 <<< (r % 8)).getLsbD k = decide (r % 8 = k) :=
      (Memory.getLsbD_pixelMask r k).trans (decide_eq_decide.2 eq_comm)
    rw [List.foldl_cons, ih, BitVec.getLsbD_or, hrow, Bool.or_assoc, ← Bool.decide_or]
    simp only [List.exists_mem_cons_iff]

/-- Bit `k` of the row mask is row `8p + k`, when the rectangle has it (43_shapes.md R120). -/
theorem getLsbD_rectRowMask (y height : Nat) {p k : Nat} (hp : p < 8) (hk : k < 8) :
    (rectRowMask y height p).getLsbD k = decide (y ≤ 8 * p + k ∧ 8 * p + k < y + height) := by
  rw [rectRowMask, getLsbD_foldl_rows, BitVec.getLsbD_zero, Bool.false_or, decide_eq_decide]
  simp only [List.mem_range'_1]
  constructor
  · rintro ⟨r, hr, hbit⟩
    have hrow : r = 8 * p + k := by omega
    omega
  · intro hrow
    exact ⟨8 * p + k, by omega, by omega⟩

/-- The closed form's mask has the bits of the rectangle. -/
theorem getLsbD_rectMask (x y width height : Nat) {p c k : Nat} (hp : p < 8) (hc : c < 128) (hk : k < 8) :
    (rectMask x y width height p c).getLsbD k = rectPixel x y width height c (8 * p + k) := by
  unfold rectMask rectPixel
  split
  · rw [getLsbD_rectRowMask y height hp hk, decide_eq_decide]
    omega
  · rw [BitVec.getLsbD_zero, eq_comm, decide_eq_false_iff_not]
    omega

/-- Settles O34: the closed form byte by byte, and the framebuffer as one set of pixels whatever the order. -/
theorem squareIsItsClosedForm : Obligations.SquareIsItsClosedForm := by
  intro x y width height s hs hwf ha
  refine ⟨_, exec_drawSquare_done x y width height hs ha, fun p c => ?_, fun cells hperm => (setPixels_perm hwf hperm).symm⟩
  refine read_setPixels hwf p c fun k hk => ?_
  rw [getLsbD_rectMask x y width height p.isLt c.isLt hk, decide_mem_rectCells]

end Sys2Proof.Machine
end

section
/-! SUPPORT. DRAW_BORDER and SET_BORDER: the bits of the border's byte tables are its pixels, and the data frames of the border are
those byte tables read page by page (43_shapes.md R124 to R134). -/

namespace Sys2Proof.Machine

/-! ### The border's pixels and bytes -/

theorem decide_mem_borderCells (solid : Bool) {px py : Nat} (hx : px < 128) (hy : py < 64) :
    decide ((px, py) ∈ borderCells solid) = borderPixel solid px py := by
  simp only [mem_borderCells solid hx hy, Bool.decide_eq_true]

/-- The bits of the bytes the tables of R125 and R126 are made of: all rows, the even rows, the top row, the bottom row. -/
theorem getLsbD_tableBytes : ∀ k < 8, (0xFF#8).getLsbD k = true ∧ (0x55#8).getLsbD k = decide (k % 2 = 0) ∧
    (0x01#8).getLsbD k = decide (k = 0) ∧ (0x80#8).getLsbD k = decide (k = 7) := by decide

/-- The bits of the solid byte table are the solid border (43_shapes.md R125). -/
theorem getLsbD_solidMask {p c k : Nat} (hp : p < 8) (hk : k < 8) :
    (solidMask p c).getLsbD k = borderPixel true c (8 * p + k) := by
  obtain ⟨hall, -, htop, hbottom⟩ := getLsbD_tableBytes k hk
  unfold solidMask
  rw [Bool.eq_iff_iff]
  simp only [borderPixel, if_true, Bool.or_eq_true, beq_iff_eq]
  split_ifs with hside hfirst hlast
  · simp only [hall, true_iff]; omega
  · simp only [htop, decide_eq_true_eq]; omega
  · simp only [hbottom, decide_eq_true_eq]; omega
  · simp only [BitVec.getLsbD_zero, Bool.false_eq_true, false_iff]; omega

/-- The bits of a byte kept on a condition. -/
theorem getLsbD_ite_zero (q : Prop) [Decidable q] (byte : Byte) (k : Nat) :
    (if q then byte else 0x00#8).getLsbD k = (decide q && byte.getLsbD k) := by
  split
  · next hq => rw [decide_eq_true hq, Bool.true_and]
  · next hq => rw [decide_eq_false hq, Bool.false_and, BitVec.getLsbD_zero]

/-- The bits of the dotted byte table are the dotted border (43_shapes.md R126). -/
theorem getLsbD_dottedMask {p c k : Nat} (hp : p < 8) (hk : k < 8) :
    (dottedMask p c).getLsbD k = borderPixel false c (8 * p + k) := by
  obtain ⟨-, heven, htop, hbottom⟩ := getLsbD_tableBytes k hk
  unfold dottedMask
  rw [BitVec.getLsbD_or, BitVec.getLsbD_or, getLsbD_ite_zero, getLsbD_ite_zero, getLsbD_ite_zero, heven, htop, hbottom,
    Bool.eq_iff_iff]
  simp only [borderPixel, Bool.false_eq_true, if_false, Bool.or_eq_true, Bool.and_eq_true, beq_iff_eq, decide_eq_true_eq]
  omega

theorem getLsbD_borderMask (solid : Bool) {p c k : Nat} (hp : p < 8) (hk : k < 8) :
    (borderMask solid p c).getLsbD k = borderPixel solid c (8 * p + k) := by
  cases solid with
  | false => exact getLsbD_dottedMask hp hk
  | true => exact getLsbD_solidMask hp hk

/-- Drawing the border sets its pixels and no other. -/
theorem pixel_setBorderCells (solid : Bool) {m : Memory} (hm : m.wf = true) (px : Fin Config.width) (py : Fin Config.height) :
    (setPixels (borderCells solid) m).pixel px py = (m.pixel px py || borderPixel solid px.val py.val) := by
  rw [pixel_setPixels hm, decide_mem_borderCells solid px.isLt py.isLt, Bool.or_comm]

/-- Drawing the border ORs its byte table into the framebuffer. -/
theorem read_setBorderCells (solid : Bool) {m : Memory} (hm : m.wf = true) (p : Fin Config.pages) (c : Fin Config.width) :
    (setPixels (borderCells solid) m).read (sliceIndex p c) = m.read (sliceIndex p c) ||| borderMask solid p.val c.val :=
  read_setPixels hm p c fun _ hk =>
    (getLsbD_borderMask solid p.isLt hk).trans (decide_mem_borderCells solid c.isLt (pageRow p hk).isLt).symm

/-- On a zero background the border is its byte table (43_shapes.md R132). -/
theorem read_setBorderCells_zero (solid : Bool) (p : Fin Config.pages) (c : Fin Config.width) :
    (setPixels (borderCells solid) Memory.zero).read (sliceIndex p c) = borderMask solid p.val c.val := by
  rw [read_setBorderCells solid Memory.wf_zero, Memory.read_zero, BitVec.zero_or]

/-! ### How many pixels a border has -/

/-- How many pixels of column `x` are on a border. -/
def borderColumnCount (solid : Bool) (x : Nat) : Nat := ((List.range 64).map (borderPixel solid x)).countP id

/-- The pixels of a border are counted column by column. -/
theorem borderPixel_count (solid : Bool) :
    (((List.range 128).flatMap fun x => (List.range 64).map fun y => borderPixel solid x y).filter id).length =
      ((List.range 128).map (borderColumnCount solid)).sum := by
  rw [← List.countP_eq_length_filter, List.countP_flatMap]
  rfl

/-- The solid border has whole columns at the sides and two pixels in each column between (43_shapes.md R125). -/
theorem borderColumnCount_solid (x : Nat) : borderColumnCount true x = if x = 0 ∨ x = 127 then 64 else 2 := by
  unfold borderColumnCount
  split
  · next hside =>
    have hon : borderPixel true x = fun _ => true := by
      funext y
      rcases hside with rfl | rfl <;> simp [borderPixel]
    rw [hon]
    decide
  · next hside =>
    obtain ⟨hleft, hright⟩ := not_or.1 hside
    have hon : borderPixel true x = fun y => y == 0 || y == 63 := by
      funext y
      simp [borderPixel, beq_false_of_ne hleft, beq_false_of_ne hright]
    rw [hon]
    decide

/-- The dotted border has half a column at the sides, the corner (0, 63) more on the left, and in the columns between both rows or
neither (43_shapes.md R126). -/
theorem borderColumnCount_dotted (x : Nat) : borderColumnCount false x =
    if x = 0 then 33 else if x = 127 then 32 else if x % 2 = 0 then 2 else 0 := by
  unfold borderColumnCount
  split_ifs with hleft hright heven
  · subst hleft; decide
  · subst hright; decide
  · have hon : borderPixel false x = fun y => y == 0 || y == 63 := by
      funext y
      simp [borderPixel, hleft, hright, heven]
    rw [hon]
    decide
  · have hon : borderPixel false x = fun _ => false := by
      funext y
      simp [borderPixel, hleft, hright, heven]
    rw [hon]
    decide

/-! ### DRAW_BORDER -/

/-- DRAW_BORDER in either style: the border's pixels, its bytes, and everything else as it was (43_shapes.md R124). -/
theorem exec_drawBorder_effect (solid : Bool) {s : State} (hs : s.Ready) (hwf : s.fb.wf = true) :
    ∃ t, exec (.drawBorder solid) s = .next t ∧
      (∀ (px : Fin Config.width) (py : Fin Config.height),
        t.fb.pixel px py = (s.fb.pixel px py || borderPixel solid px.val py.val)) ∧
      (∀ (p : Fin Config.pages) (c : Fin Config.width),
        t.fb.read (sliceIndex p c) = s.fb.read (sliceIndex p c) ||| borderMask solid p.val c.val) ∧
      t.log = s.log ∧ t.bus = s.bus ∧ Completed 0 s t :=
  ⟨_, exec_drawBorder solid hs, pixel_setBorderCells solid hwf, read_setBorderCells solid hwf, rfl, rfl, hs.1, rfl, rfl, rfl, rfl⟩

/-- Settles O35: the solid style of DRAW_BORDER, and its pixels counted by columns. -/
theorem solidBorderPixelsAndBytes : Obligations.SolidBorderPixelsAndBytes := by
  refine ⟨fun s hs hwf => exec_drawBorder_effect true hs hwf, ?_⟩
  rw [borderPixel_count, funext borderColumnCount_solid]
  decide +kernel

/-- Settles O36: the dotted style of DRAW_BORDER, and its pixels counted by columns. -/
theorem dottedBorderPixelsAndBytes : Obligations.DottedBorderPixelsAndBytes := by
  refine ⟨fun s hs hwf => exec_drawBorder_effect false hs hwf, ?_⟩
  rw [borderPixel_count, funext borderColumnCount_dotted]
  decide +kernel

/-- The cells of the dotted top and bottom rows. -/
theorem mem_dottedRows (px py : Nat) : (px, py) ∈ (loopValues 0 128 2).flatMap (fun i => [(i, 0), (i, 63)]) ↔
    px < 128 ∧ px % 2 = 0 ∧ (py = 0 ∨ py = 63) := by
  simp only [List.mem_flatMap, mem_loopValues Nat.two_pos, List.mem_cons, List.not_mem_nil, or_false, Prod.mk.injEq, ← and_or_left]
  constructor
  · rintro ⟨i, ⟨-, hlt, heven⟩, rfl, hrow⟩
    exact ⟨hlt, heven, hrow⟩
  · rintro ⟨hlt, heven, hrow⟩
    exact ⟨px, ⟨Nat.zero_le _, hlt, heven⟩, rfl, hrow⟩

/-- The cells of the dotted left and right columns. -/
theorem mem_dottedColumns (px py : Nat) : (px, py) ∈ (loopValues 0 64 2).flatMap (fun j => [(0, j), (127, j)]) ↔
    py < 64 ∧ py % 2 = 0 ∧ (px = 0 ∨ px = 127) := by
  simp only [List.mem_flatMap, mem_loopValues Nat.two_pos, List.mem_cons, List.not_mem_nil, or_false, Prod.mk.injEq, ← or_and_right]
  constructor
  · rintro ⟨j, ⟨-, hlt, heven⟩, hcolumn, rfl⟩
    exact ⟨hlt, heven, hcolumn⟩
  · rintro ⟨hlt, heven, hcolumn⟩
    exact ⟨py, ⟨Nat.zero_le _, hlt, heven⟩, hcolumn, rfl⟩

/-- DRAW_BORDER dotted visits the rows and then the columns (43_shapes.md R124). -/
theorem borderCells_dotted : borderCells false = (loopValues 0 128 2).flatMap (fun i => [(i, 0), (i, 63)]) ++
    (loopValues 0 64 2).flatMap (fun j => [(0, j), (127, j)]) := by
  simp [borderCells, borderStep]

/-- Settles O37: the corners are pixels and byte table entries of the dotted border on a zero background. -/
theorem dottedBorderCorners : Obligations.DottedBorderCorners := by
  refine ⟨fun s hs hzero => ?_, borderCells_dotted, ?_⟩
  · obtain ⟨t, hexec, hpixel, hread, -⟩ := exec_drawBorder_effect false hs (hzero ▸ Memory.wf_zero)
    rw [hzero] at hpixel hread
    exact ⟨t, hexec, hpixel 0 0, hpixel 127 0, hpixel 0 63, hpixel 127 63, hread 0 0, hread 0 127, hread 7 0, hread 7 127⟩
  · simp only [mem_dottedRows, mem_dottedColumns]
    decide

theorem borderPixel_solid_of_dotted {x y : Nat} (h : borderPixel false x y = true) : borderPixel true x y = true := by
  simp only [borderPixel, Bool.false_eq_true, if_false, if_true, Bool.or_eq_true, Bool.and_eq_true, beq_iff_eq] at h ⊢
  omega

/-- Settles O38: drawing ORs pixels in, and the dotted border's are among the solid one's. -/
theorem borderOnlySetsBits : Obligations.BorderOnlySetsBits := by
  intro s hs hwf
  refine ⟨fun solid => ⟨_, exec_drawBorder solid hs, fun px py hon => ?_⟩, _, exec_drawBorder true hs, ?_⟩
  · exact (pixel_setBorderCells solid hwf px py).trans (by rw [hon, Bool.true_or])
  · rw [exec_drawBorder false (s := { s with fb := setPixels (borderCells true) s.fb }) hs,
      setPixels_eq_self (wf_setPixels hwf _)]
    intro px py hmem
    have hsolid := borderPixel_solid_of_dotted ((mem_borderCells false px.isLt py.isLt).1 hmem)
    rw [pixel_setBorderCells true hwf, hsolid, Bool.or_true]

/-! ### SET_BORDER -/

/-- Settles O39: the border drawn on the zeroed framebuffer is its byte table. -/
theorem setBorderLeavesOnlyTheBorder : Obligations.SetBorderLeavesOnlyTheBorder :=
  fun solid _ hs ha =>
    ⟨_, exec_setBorder_done solid hs ha, read_setBorderCells_zero solid, rfl, rfl, rfl, rfl, rfl, rfl, rfl⟩

/-- A page's data frame is its 128 bytes in column order (45_page_serializer.md R144). -/
theorem updateFrame_data (m : Memory) (p : Fin Config.pages) : updateFrame m (4 * p.val + 3) = 0x40#8 :: m.pageSlice p := by
  have hmod : (4 * p.val + 3) % 4 = 3 := by omega
  have hpage : (4 * p.val + 3) / 4 = p.val := by omega
  simp only [updateFrame, hmod, hpage, pageSlice_eq]

/-- A page of the border on a zero background is a row of the byte table. -/
theorem pageSlice_border (solid : Bool) (p : Fin Config.pages) :
    (setPixels (borderCells solid) Memory.zero).pageSlice p = (List.range 128).map (borderMask solid p.val) := by
  rw [← List.map_coe_finRange_eq_range, List.map_map]
  exact List.map_congr_left fun c _ => read_setBorderCells_zero solid p c

/-- A row of 128 bytes: the left one, the 126 between, the right one. -/
theorem map_range_columns (f : Nat → Byte) :
    (List.range 128).map f = f 0 :: ((List.range 126).map fun c => f (c + 1)) ++ [f 127] := by
  rw [List.range_succ, List.map_append, List.range_succ_eq_map, List.map_cons, List.map_map]
  rfl

/-- A row of columns taken in pairs. -/
theorem map_range_pairs (f : Nat → Byte) (n : Nat) :
    (List.range (2 * n)).map f = (List.range n).flatMap fun i => [f (2 * i), f (2 * i + 1)] := by
  induction n with
  | zero => rfl
  | succ n ih =>
    rw [Nat.mul_succ, List.range_add, List.map_append, ih, List.range_succ (n := n), List.flatMap_append]
    rfl

/-- Between the sides a page of the solid border is one byte over and over (43_shapes.md R133). -/
theorem map_solidMask_inner (p : Nat) : ((List.range 126).map fun c => solidMask p (c + 1)) =
    List.replicate 126 (if p = 0 then 0x01#8 else if p = 7 then 0x80#8 else 0x00#8) := by
  rw [List.eq_replicate_iff]
  refine ⟨by simp, fun byte hmem => ?_⟩
  obtain ⟨c, hc, rfl⟩ := List.mem_map.1 hmem
  have hinner := List.mem_range.1 hc
  exact if_neg (by omega)

/-- Between the sides a page of the dotted border is a pair of bytes over and over, the odd column untouched (43_shapes.md R133). -/
theorem map_dottedMask_inner (p : Nat) : ((List.range 126).map fun c => dottedMask p (c + 1)) =
    (List.replicate 63 [0x00#8, if p = 0 then 0x01#8 else if p = 7 then 0x80#8 else 0x00#8]).flatten := by
  refine (map_range_pairs _ 63).trans ?_
  rw [List.flatMap_def]
  refine congrArg List.flatten (List.eq_replicate_iff.2 ⟨by simp, fun pair hmem => ?_⟩)
  obtain ⟨i, hi, rfl⟩ := List.mem_map.1 hmem
  have hinner := List.mem_range.1 hi
  have hsides : ¬ (2 * i + 1 = 0 ∨ 2 * i + 1 = 127) ∧ ¬ (2 * i + 1 + 1 = 0 ∨ 2 * i + 1 + 1 = 127) := by omega
  have hparity : (2 * i + 1) % 2 = 1 ∧ (2 * i + 1 + 1) % 2 = 0 := by omega
  simp only [dottedMask, hsides, hparity]
  rcases eq_or_ne p 0 with rfl | hfirst
  · decide
  · simp [hfirst]

/-- The rule's data frames are the byte table's rows (43_shapes.md R133). -/
theorem borderDataFrame_eq (solid : Bool) (p : Nat) :
    borderDataFrame solid p = 0x40#8 :: (List.range 128).map (borderMask solid p) := by
  rw [map_range_columns]
  cases solid with
  | true =>
    simp only [borderDataFrame, borderMask, if_true, map_solidMask_inner]
    rfl
  | false =>
    simp only [borderDataFrame, borderMask, Bool.false_eq_true, if_false, map_dottedMask_inner]
    split_ifs with hfirst hlast
    · subst hfirst; rfl
    · subst hlast; rfl
    · simp [dottedMask, hfirst, hlast]

/-- Settles O40: behind the first update, the second one sends the byte table of the border page by page. -/
theorem setBorderDataFrames : Obligations.SetBorderDataFrames := by
  intro solid s hs ha
  refine ⟨_, exec_setBorder_done solid hs ha, fun p hp => ?_⟩
  have hfirst : (fullUpdate s.bus Memory.zero).length ≤ 32 + (4 * p + 3) :=
    (fullUpdate_length _ _).le.trans (Nat.le_add_right _ _)
  rw [List.getElem?_append_right (Nat.le_add_right _ _), Nat.add_sub_cancel_left, List.getElem?_append_right hfirst,
    fullUpdate_length, Nat.add_sub_cancel_left, fullUpdate_getElem? _ _ (by omega), updateFrame_data _ ⟨p, hp⟩,
    pageSlice_border, borderDataFrame_eq]

end Sys2Proof.Machine
end

section
/-! SUPPORT. The text stubs: the whole effect of DRAW_STRING and DISPLAY_MESSAGE with every transfer answered, and that the cursor
moves of their pseudocode show in no run, answered or not (44_text_stubs.md R135 to R142). -/

namespace Sys2Proof.Machine

/-! ### Whole effects -/

/-- DRAW_STRING with its 32 transfers answered: its whole effect (44_text_stubs.md R135, R137). -/
theorem exec_drawString_done (x y n : Nat) {s : State} (hs : s.Ready) (ha : s.Answers 32) : exec (.drawString x y n) s =
    .next { s with log := s.log ++ fullUpdate s.bus s.fb, answers := s.answers.drop 32, seq := .idle } := by
  rw [exec_answered (.drawString x y n) hs ha, stepsOf, drawStringSteps, applyAll_drawStringBody, transfersOf]

/-- Settles O42: the cursor loop changes nothing, so what is left of DRAW_STRING is its update. -/
theorem drawStringOnlyUpdates : Obligations.DrawStringOnlyUpdates :=
  fun x y n _ hs ha => ⟨_, exec_drawString_done x y n hs ha, rfl, rfl, rfl, rfl, rfl, rfl, rfl, rfl⟩

/-- DISPLAY_MESSAGE with its 96 transfers answered: its whole effect, in which `n` does not occur (44_text_stubs.md R139 to R142). -/
theorem exec_displayMessage_done (n : Nat) {s : State} (hs : s.Ready) (ha : s.Answers 96) : exec (.displayMessage n) s =
    .next { s with fb := Memory.zero,
                   log := s.log ++ (fullUpdate s.bus Memory.zero ++
                     (fullUpdate s.bus Memory.zero ++ fullUpdate s.bus Memory.zero)),
                   answers := s.answers.drop 96, seq := .idle } := by
  rw [exec_answered (.displayMessage n) hs ha, stepsOf, applyAll_displayMessageSteps, transfersOf, List.append_assoc,
    List.append_assoc]

/-- Settles O43: the clear, the text stub and DISPLAY_MESSAGE itself each send the zeroed framebuffer. -/
theorem displayMessageClearsAndSendsThreeTimes : Obligations.DisplayMessageClearsAndSendsThreeTimes :=
  fun n _ hs ha => ⟨_, exec_displayMessage_done n hs ha, Memory.read_zero, rfl, rfl, rfl, rfl, rfl, rfl, rfl⟩

/-! ### The cursor shows in no run -/

/-- The step moves the text cursor, which is no part of the state (44_text_stubs.md R136). -/
def Action.isCursorMove : Action → Bool
  | .advanceCursor _ => true
  | _ => false

theorem Action.exists_advanceCursor {a : Action} (ha : a.isCursorMove = true) : ∃ cx, a = .advanceCursor cx := by
  cases a with
  | advanceCursor cx => exact ⟨cx, rfl⟩
  | _ => cases ha

/-- The steps that may change the state or wait. -/
def withoutCursor (steps : List Action) : List Action := steps.filter fun a => !a.isCursorMove

/-- Running the steps without their cursor moves, as any command and from any position, differs in the sequencer alone. -/
theorem runSteps_withoutCursor (cmd cmd' : Instr) (steps : List Action) (pos pos' : Nat) (s : State) :
    ∃ q, runSteps cmd' (withoutCursor steps) pos' s = { runSteps cmd steps pos s with seq := q } := by
  induction steps generalizing pos pos' s with
  | nil => exact ⟨.idle, rfl⟩
  | cons a rest ih =>
    cases hcur : a.isCursorMove with
    | true =>
      obtain ⟨cx, rfl⟩ := Action.exists_advanceCursor hcur
      rw [runSteps_local rfl]
      exact ih (pos + 1) pos' s
    | false =>
      have hkeep : withoutCursor (a :: rest) = a :: withoutCursor rest := List.filter_cons_of_pos (by rw [hcur]; rfl)
      rw [hkeep]
      cases ha : a.isTransfer with
      | false =>
        rw [runSteps_local ha, runSteps_local ha]
        exact ih (pos + 1) (pos' + 1) (a.apply s)
      | true =>
        cases htake : (a.apply s).takeAnswer with
        | none =>
          rw [runSteps_hang ha htake, runSteps_hang ha htake]
          exact ⟨_, rfl⟩
        | some t =>
          rw [runSteps_transfer ha htake, runSteps_transfer ha htake]
          exact ih (pos + 1) (pos' + 1) t

/-- Two commands whose pseudocodes differ in cursor moves alone lead, whatever the answers, to states that differ in the sequencer
alone. -/
theorem exec_eq_of_withoutCursor {i j : Instr} (hij : withoutCursor (stepsOf i) = withoutCursor (stepsOf j)) {s : State}
    (hs : s.Ready) : ∃ t u q q', exec i s = .next t ∧ exec j s = .next u ∧
      ({ t with seq := q } : State) = { u with seq := q' } := by
  obtain ⟨q, hi⟩ := runSteps_withoutCursor i i (stepsOf i) 0 0 s
  obtain ⟨q', hj⟩ := runSteps_withoutCursor j i (stepsOf j) 0 0 s
  have hexec : ∀ k, exec k s = .next (runSteps k (stepsOf k) 0 s) := fun k =>
    (exec_runs hs.1 (.inr hs.2)).trans (congrArg _ (runSteps_setSeq k (stepsOf k) 0 s _))
  rw [hij] at hi
  exact ⟨_, _, q, q', hexec i, hexec j, hi.symm.trans hj⟩

theorem withoutCursor_append (l₁ l₂ : List Action) : withoutCursor (l₁ ++ l₂) = withoutCursor l₁ ++ withoutCursor l₂ :=
  List.filter_append l₁ l₂

theorem withoutCursor_textSteps (x n : Nat) : withoutCursor (textSteps x n) = [] := by
  refine List.filter_eq_nil_iff.2 fun a ha => ?_
  obtain ⟨k, -, rfl⟩ := List.mem_map.1 ha
  exact Bool.false_ne_true

/-- Without the cursor moves the length is gone from DISPLAY_MESSAGE (44_text_stubs.md R142). -/
theorem withoutCursor_displayMessageSteps (n : Nat) : withoutCursor (displayMessageSteps n) =
    withoutCursor clearInComposition ++ (withoutCursor updateProc ++ withoutCursor updateProc) := by
  rw [displayMessageSteps, drawStringBody, withoutCursor_append, withoutCursor_append, withoutCursor_append, withoutCursor_textSteps,
    List.nil_append]

/-- Settles O44: the length is in nothing but the number of cursor moves, and these show in no run. -/
theorem messageLengthNeverMatters : Obligations.MessageLengthNeverMatters := by
  intro n m s hs
  refine ⟨fun ha => (exec_displayMessage_done n hs ha).trans (exec_displayMessage_done m hs ha).symm, ?_⟩
  have hsteps : withoutCursor (stepsOf (.displayMessage n)) = withoutCursor (stepsOf (.displayMessage m)) :=
    (withoutCursor_displayMessageSteps n).trans (withoutCursor_displayMessageSteps m).symm
  obtain ⟨t, u, q, q', ht, hu, hsame⟩ := exec_eq_of_withoutCursor hsteps hs
  injection hsame with hfb hbus _ _ _ hlog
  exact ⟨t, u, ht, hu, hfb, hbus, hlog⟩

end Sys2Proof.Machine
end

section
/-! SUPPORT. The page serializer: the whole effect of UPDATE with every transfer answered, and of an UPDATE that waits at one of its
transfers (45_page_serializer.md R143 to R149). -/

namespace Sys2Proof.Machine

/-! ### UPDATE with every transfer answered -/

/-- UPDATE's pseudocode with every transfer answered sends the framebuffer and changes no bit of it (45_page_serializer.md R146). -/
theorem afterSteps_update (s : State) : afterSteps (stepsOf .update) s =
    { s with log := s.log ++ fullUpdate s.bus s.fb, answers := s.answers.drop 32, seq := .idle } := by
  rw [afterSteps, transferCount_stepsOf, transfersOf, stepsOf, updateSteps, applyAll_updateProc]

/-- UPDATE with its 32 transfers answered: its whole effect (45_page_serializer.md R144, R146). -/
theorem exec_update_done {s : State} (hs : s.Ready) (ha : s.Answers 32) : exec .update s =
    .next { s with log := s.log ++ fullUpdate s.bus s.fb, answers := s.answers.drop 32, seq := .idle } := by
  rw [exec_eq_afterSteps hs (by rwa [transferCount_stepsOf]), afterSteps_update]

/-- Settles O46: the 32 transfers behind the old log are the index table's rows, in order. -/
theorem updateSendsThePagesInterleaved : Obligations.UpdateSendsThePagesInterleaved := by
  intro s hs ha
  have hlength : (s.log ++ fullUpdate s.bus s.fb).length = s.log.length + 32 := by
    rw [List.length_append, fullUpdate_length]
  refine ⟨_, exec_update_done hs ha, rfl, hlength, List.prefix_append _ _, fun k hk => ?_, rfl, rfl, rfl, rfl, rfl, rfl⟩
  rw [List.getElem?_append_right (Nat.le_add_right _ _), Nat.add_sub_cancel_left, fullUpdate_getElem? _ _ hk]

/-- Settles O48: the first UPDATE leaves the second the framebuffer and the bus it found, and so the same 32 transfers. -/
theorem updateTwiceSendsTheSameTwice : Obligations.UpdateTwiceSendsTheSameTwice := by
  intro s hs ha
  have hanswers : s.Answers (transferCount (stepsOf .update) + 32) := by
    rw [transferCount_stepsOf]
    exact ha
  have hready := afterSteps_ready (stepsOf .update) hs
  have hrest := afterSteps_answers hanswers
  rw [afterSteps_update] at hready hrest
  exact ⟨_, _, fullUpdate s.bus s.fb, exec_update_done hs (answers_mono (by decide) ha), exec_update_done hready hrest, rfl,
    fullUpdate_length _ _, rfl, List.append_assoc _ _ _⟩

/-! ### An UPDATE that waits -/

/-- Every step of `UpdateProc` is a transfer: its transfers are as many as its steps. -/
theorem isTransfer_of_mem_updateProc : ∀ a ∈ updateProc, a.isTransfer = true :=
  List.countP_eq_length.1 (transferCount_updateProc.trans (by decide))

theorem isTransfer_of_mem_updateProc_prefix {before after : List Action} (hsplit : updateProc = before ++ after) :
    ∀ a ∈ before, a.isTransfer = true := fun a ha =>
  isTransfer_of_mem_updateProc a (hsplit ▸ List.mem_append_left after ha)

theorem transferCount_updateProc_prefix {before after : List Action} (hsplit : updateProc = before ++ after) :
    transferCount before = before.length := List.countP_eq_length.2 (isTransfer_of_mem_updateProc_prefix hsplit)

theorem Action.apply_transfer {a : Action} (ha : a.isTransfer = true) (s : State) :
    a.apply s = { s with log := (a.apply s).log } := by
  cases a with
  | sendCmd c params => rfl
  | sendData p => rfl
  | _ => cases ha

/-- Transfers change nothing but the log (20_memory.md R57). -/
theorem applyAll_transfers {l : List Action} (hl : ∀ a ∈ l, a.isTransfer = true) (s : State) :
    applyAll l s = { s with log := (applyAll l s).log } := by
  induction l generalizing s with
  | nil => rfl
  | cons a l ih =>
    rw [applyAll_cons, ih (fun b hb => hl b (List.mem_cons_of_mem a hb)), Action.apply_transfer (hl a List.mem_cons_self)]

/-- The first steps of `UpdateProc` issue as many first transfers of the full update, and change nothing else. -/
theorem applyAll_updateProc_prefix {before after : List Action} (hsplit : updateProc = before ++ after) (s : State) :
    applyAll before s = { s with log := s.log ++ (fullUpdate s.bus s.fb).take before.length } := by
  have hlen : (applyAll before s).log.length = s.log.length + before.length := by
    rw [applyAll_log_length, transferCount_updateProc_prefix hsplit]
  have hprefix : (applyAll before s).log <+: s.log ++ fullUpdate s.bus s.fb := by
    have hwhole : (applyAll updateProc s).log = s.log ++ fullUpdate s.bus s.fb := by rw [applyAll_updateProc]
    rw [← hwhole, hsplit, applyAll_append]
    exact applyAll_log_prefix after _
  have hlog : (applyAll before s).log = s.log ++ (fullUpdate s.bus s.fb).take before.length := by
    rw [List.prefix_iff_eq_take.1 hprefix, hlen, List.take_length_add_append]
  rw [applyAll_transfers (isTransfer_of_mem_updateProc_prefix hsplit), hlog]

/-- UPDATE with its transfer number `pre.length` not answered: its whole effect (45_page_serializer.md R148). -/
theorem exec_update_wait {s : State} {pre post : List Answer} (hs : s.Ready) (hans : s.answers = pre ++ .pending :: post)
    (hpre : ∀ a ∈ pre, a.isPending = false) (hlt : pre.length < 32) : exec .update s =
      .next { s with log := s.log ++ (fullUpdate s.bus s.fb).take (pre.length + 1), answers := .pending :: post,
                     seq := .busy .update { pos := pre.length, inFlight := true } } := by
  obtain ⟨before, a, after, hsteps, -, hcount, hwait⟩ :=
    exec_wait (i := .update) hs.1 (.inr hs.2) hans hpre (by rwa [transferCount_stepsOf])
  have hsplit : updateProc = (before ++ [a]) ++ after := hsteps.trans (List.append_cons before a after)
  have hpos : before.length = pre.length := (transferCount_updateProc_prefix hsteps).symm.trans hcount
  rw [hwait, applyAll_updateProc_prefix hsplit, List.length_append, hpos, List.length_singleton]

/-- Settles O47: the transfer that hangs is the last one issued, and from there every step is the same wait. -/
theorem updateHangsAtItsUnansweredTransfer : Obligations.UpdateHangsAtItsUnansweredTransfer :=
  fun _ _ post hs hans hpre hlt => ⟨_, exec_update_wait hs hans hpre hlt, rfl, rfl, rfl,
    fun n => unansweredTransferHangs n _ _ _ post rfl rfl rfl⟩

end Sys2Proof.Machine
end

section
/-! SUPPORT. The two faults and the faulted block (60_exceptions.md R154 to R160). `illegalWord_iff_decode_error` says once that R155's
words are the ones the decoder rejects, `exec_fault_cases` and `step_fault_cases` what a command and a step can do to the fault record;
the statements about faults are derived from these three. -/

namespace Sys2Proof.Machine

/-! ### Illegal words -/

theorem fieldOP_toNat (w : CommandWord) : (fieldOP w).toNat = w.toNat / 2 ^ 32 := by
  rw [fieldOP, field_toNat, Nat.mod_eq_of_lt]
  have := CommandWord.toNat_lt w
  omega

theorem ifReservedZero_eq_error {op : Byte} {z : Bool} {i : Instr} :
    (∃ e, ifReservedZero op z i = .error e) ↔ z = false := by
  cases z <;> simp [ifReservedZero]

/-- The words of R155 are the words the decoder rejects: under each known opcode, those with a non-zero reserved field. -/
theorem illegalWord_iff_decode_error (w : CommandWord) : IllegalWord w ↔ ∃ e, decode w = .error e := by
  have ha : w.toNat / 2 ^ 24 % 256 = (fieldA w).toNat := (field_toNat w 24).symm
  have hb : w.toNat / 2 ^ 16 % 256 = (fieldB w).toNat := (field_toNat w 16).symm
  have hc : w.toNat / 2 ^ 8 % 256 = (fieldC w).toNat := (field_toNat w 8).symm
  have hd : w.toNat % 256 = (fieldD w).toNat := by rw [fieldD, field_toNat, Nat.pow_zero, Nat.div_one]
  simp only [IllegalWord, ← fieldOP_toNat, ha, hb, hc, hd]
  unfold decode decodeFields
  split
  all_goals simp only [ifReservedZero_eq_error, Bool.and_eq_false_iff, beq_eq_false_iff_ne, decide_eq_false_iff_not, ne_eq,
    ← BitVec.toNat_inj, BitVec.ofNat_eq_ofNat, BitVec.toNat_zero, reduceCtorEq, exists_false, Except.error.injEq, exists_eq',
    iff_true, iff_false]
  -- Both sides are now about numbers: under an unassigned opcode both hold, under a known one they name the same fields.
  case h_10 =>
    simp only [imp_false] at *
    omega
  all_goals omega

theorem not_illegalWord_of_decode {w : CommandWord} {i : Instr} (h : decode w = .ok i) : ¬ IllegalWord w := by
  simp [illegalWord_iff_decode_error, h]

/-- A word matches no row exactly when the decoder rejects it (30_encoding.md R77). -/
theorem matches_no_row_iff_decode_error (w : CommandWord) :
    (∀ r ∈ opcodeTable, r.matchesWord w = false) ↔ ∃ e, decode w = .error e := by
  obtain ⟨-, hrow, hnone, -⟩ := decodesExactlyTheTableRows w
  refine ⟨hnone, fun ⟨e, he⟩ r hr => Bool.eq_false_iff.2 fun hmatch => ?_⟩
  obtain ⟨i, hi, -⟩ := hrow r hr hmatch
  cases he.symm.trans hi

/-- Settles O9: both sides of the equivalence say that the decoder rejects the word, and accepting such a word rejects it. -/
theorem illegalWordRaisesIllegalCommand : Obligations.IllegalWordRaisesIllegalCommand := by
  refine ⟨fun w => (illegalWord_iff_decode_error w).trans (matches_no_row_iff_decode_error w).symm,
    fun s w rest hs hoff hill => ?_⟩
  obtain ⟨e, he⟩ := (illegalWord_iff_decode_error w).1 hill
  exact ⟨_, step_idle_illegal hs hoff he, rfl⟩

/-! ### Words before INIT -/

theorem isInit_eq_false {i : Instr} (hi : ∀ h, i ≠ .init h) : isInit i = false :=
  Bool.eq_false_iff.2 fun hinit => (isInit_eq_true hinit).elim hi

/-- The `NotInitialized` check by opcode (60_exceptions.md R157): of the nine commands INIT alone has `OP = 0x01`. -/
theorem fieldOP_encode_ne_init {i : Instr} (hi : isInit i = false) : fieldOP (encode i) ≠ 0x01#8 := by
  cases i with
  | init h => cases hi
  | _ => simp [encode]

/-- Settles O10: the command the word decodes to is not INIT, and its word is the one accepted. -/
theorem legalWordBeforeInitRaisesNotInitialized : Obligations.LegalWordBeforeInitRaisesNotInitialized := by
  intro s w rest i hs hbus hoff hdec hi
  refine ⟨_, (step_idle_legal hs hoff hdec).trans (exec_not_init hs hbus (isInit_eq_false hi)), ?_⟩
  rw [encode_of_decode hdec]
  rfl

/-! ### What a step does to the fault record -/

/-- The sequencer is not `FAULTED`, and the fault record is that of `s`. -/
def NoFault (s t : State) : Prop := t.seq ≠ .faulted ∧ t.faultCode = s.faultCode ∧ t.faultWord = s.faultWord

theorem runSteps_noFault (cmd : Instr) (steps : List Action) (pos : Nat) (s : State) :
    NoFault s (runSteps cmd steps pos s) := by
  obtain ⟨done, as, q, -, hq, hrun⟩ := runSteps_outcome cmd steps pos s
  rw [hrun]
  exact ⟨hq.not_faulted, applyAll_faultCode done s, applyAll_faultWord done s⟩

theorem resumeCommand_noFault (cmd : Instr) (p : Progress) {s : State} (hs : s.seq ≠ .faulted) :
    NoFault s (resumeCommand cmd p s) := by
  rcases resumeCommand_outcome cmd p s with hwait | ⟨k, as, hgo⟩
  · rw [hwait]
    exact ⟨hs, rfl, rfl⟩
  · rw [hgo]
    exact runSteps_noFault cmd _ k { s with answers := as }

/-- An `IDLE` block executes a command without a fault, or raises `NotInitialized`. -/
theorem exec_fault_cases (i : Instr) {s : State} (hs : s.seq = .idle) :
    (∃ t, exec i s = .next t ∧ NoFault s t) ∨
    (s.bus = none ∧ isInit i = false ∧ exec i s = .next (s.raiseFault .notInitialized (encode i))) := by
  rcases exec_cases i s with ⟨hne, -⟩ | ⟨-, hbus, hi, he⟩ | ⟨-, -, he⟩
  · exact absurd hs hne
  · exact .inr ⟨hbus, hi, he⟩
  · exact .inl ⟨_, he, runSteps_noFault i _ 0 { s with seq := .busy i .start }⟩

/-- The step from `s` to `t` accepted a word and raised the fault that R155 or R156 gives it. -/
def RaisedAtAcceptance (s t : State) : Prop :=
  s.seq = .idle ∧ ∃ w rest, s.offered = w :: rest ∧
    ((Faulted 1#2 w { s with offered := rest } t ∧ IllegalWord w) ∨
     (Faulted 2#2 w { s with offered := rest } t ∧ ¬ IllegalWord w ∧ s.bus = none ∧ fieldOP w ≠ 0x01#8))

/-- A step stays at a `FAULTED` block, raises no fault, or raises one at acceptance. -/
theorem step_fault_cases (s : State) : ∃ t, step s = .next t ∧
    ((s.seq = .faulted ∧ t = s) ∨ NoFault s t ∨ (t.seq = .faulted ∧ RaisedAtAcceptance s t)) := by
  rcases step_cases s with ⟨hs, he⟩ | ⟨cmd, p, hs, he⟩ | ⟨hs, -, he⟩ | ⟨w, rest, e, hs, hoff, hdec, he⟩ |
    ⟨w, rest, i, hs, hoff, hdec, he⟩
  · exact ⟨_, he, .inl ⟨hs, rfl⟩⟩
  · exact ⟨_, he, .inr (.inl (resumeCommand_noFault cmd p (by simp [hs])))⟩
  · exact ⟨_, he, .inr (.inl ⟨by simp [hs], rfl, rfl⟩)⟩
  · have hill : IllegalWord w := (illegalWord_iff_decode_error w).2 ⟨e, hdec⟩
    exact ⟨_, he, .inr (.inr ⟨rfl, hs, w, rest, hoff, .inl ⟨rfl, hill⟩⟩)⟩
  · rcases exec_fault_cases i (s := { s with offered := rest }) hs with ⟨t, ht, hno⟩ | ⟨hbus, hi, ht⟩
    · exact ⟨t, he.trans ht, .inr (.inl hno)⟩
    · obtain rfl : encode i = w := encode_of_decode hdec
      exact ⟨_, he.trans ht, .inr (.inr ⟨rfl, hs, _, rest, hoff,
        .inr ⟨rfl, not_illegalWord_of_decode hdec, hbus, fieldOP_encode_ne_init hi⟩⟩)⟩

/-- Settles O11, by the three things a step can do to the fault record. -/
theorem faultIsPreciseAndNamed : Obligations.FaultIsPreciseAndNamed := by
  intro s t hst
  obtain ⟨t', ht', hcases⟩ := step_fault_cases s
  cases ht'.symm.trans hst
  rcases hcases with ⟨hs, rfl⟩ | ⟨hne, hrecord⟩ | ⟨ht, hraised⟩
  · exact ⟨fun _ hne => absurd hs hne, fun hne => absurd hs hne⟩
  · exact ⟨fun ht => absurd ht hne, fun _ => hrecord⟩
  · exact ⟨fun _ _ => hraised, fun hne => absurd ht hne⟩

/-! ### No step stops -/

theorem exec_next (i : Instr) (s : State) : ∃ t, exec i s = .next t := by
  rcases exec_cases i s with ⟨-, he⟩ | ⟨-, -, -, he⟩ | ⟨-, -, he⟩ <;> exact ⟨_, he⟩

theorem step_next (s : State) : ∃ t, step s = .next t := (step_fault_cases s).imp fun _ => And.left

/-- Settles O7. -/
theorem everyStepAnswersANextState : Obligations.EveryStepAnswersANextState := ⟨step_next, exec_next⟩

/-! ### The faulted block -/

/-- With no transfer in flight there is nothing to complete (20_memory.md R58). -/
theorem completeTransfer_not_inFlight {s : State} (hs : s.seq.inFlight = false) (r : TransferResult) : s.completeTransfer r = s := by
  simp [State.completeTransfer, hs]

theorem observe_isSome_of_not_busy {s : State} (hs : s.seq.isBusy = false) : s.observe.isSome = true := by
  simp [State.observe, hs]

/-- Settles O12: a faulted block steps to itself, refuses words and has no transfer in flight. -/
theorem faultedBlockDoesNothingUntilReset : Obligations.FaultedBlockDoesNothingUntilReset := by
  intro s hs
  have hrun (n : Nat) : Host.Core.run Sys2Proof.core n s = .next s := run_of_step_self (step_faulted hs) n
  refine ⟨hrun, fun i => exec_not_idle (by simp [hs]), fun w => ?_, completeTransfer_not_inFlight (by rw [hs]; rfl),
    observe_isSome_of_not_busy (by rw [hs]; rfl), State.hostReset_seq s⟩
  rw [State.offer_faulted hs]
  exact ⟨hs, hrun 1⟩

end Sys2Proof.Machine
end

section
/-! SUPPORT. The initialization hazard: an INIT that waits inside its init sequence has sent the frames so far, and nothing else goes
out before the sixteen are on the wire (70_reset_and_hazards.md R184; 30_encoding.md R92; 41_init_clear.md R101). -/

namespace Sys2Proof.Machine

/-- Settles O56: the reset state is idle, bound to no bus, and its log is empty. -/
theorem initSequenceFirstAtReset : Obligations.InitSequenceFirstAtReset := .inl ⟨rfl, rfl, rfl⟩

/-- The model's init sequence and the table's frames are the same (30_encoding.md R91). -/
theorem map_cmdFrame_initSeq : initSeq.map (fun c => cmdFrame c.1 c.2) = initFrames := by decide

/-- Behind its bus binding and `k` init frames, INIT sends the init frame number `k`. -/
theorem stepsOf_init_drop (h : BusHandle) {k : Nat} (hk : k < 16) : ∃ c params,
    (stepsOf (.init h)).drop (k + 1) = .sendCmd c params :: (stepsOf (.init h)).drop (k + 2) ∧
    initFrames.take (k + 1) = initFrames.take k ++ [cmdFrame c params] := by
  have hseq : k < initSeq.length := hk
  have hsteps : k < initSeqSteps.length := hk
  refine ⟨initSeq[k].1, initSeq[k].2, ?_, ?_⟩
  · have hstep : (initSeqSteps ++ clearProc)[k]? = some (.sendCmd initSeq[k].1 initSeq[k].2) := by
      rw [List.getElem?_append_left hsteps, initSeqSteps, List.getElem?_map, List.getElem?_eq_getElem hseq]
      rfl
    exact (List.getElem?_eq_some_iff.1 hstep).elim fun hlt heq => heq ▸ List.drop_eq_getElem_cons hlt
  · rw [← map_cmdFrame_initSeq, List.take_add_one, List.getElem?_map, List.getElem?_eq_getElem hseq]
    rfl

/-- INIT going on behind `k` init frames: it waits at one of those left, or the whole sequence is sent. -/
theorem runSteps_init_initSequenceFirst (h : BusHandle) {k : Nat} (hk : k ≤ 16) {s : State}
    (hlog : s.log.map Transfer.bytes = initFrames.take k) :
    (runSteps (.init h) ((stepsOf (.init h)).drop (k + 1)) (k + 1) s).InitSequenceFirst := by
  induction hk using Nat.decreasingInduction generalizing s with
  | self =>
    obtain ⟨-, -, -, hprefix⟩ := runSteps_frame (.init h) ((stepsOf (.init h)).drop 17) 17 s
    have hsent : s.log.map Transfer.bytes = initFrames := hlog
    exact .inr (.inl (hsent ▸ hprefix.map Transfer.bytes))
  | of_succ k hk ih =>
    obtain ⟨c, params, hsteps, hframe⟩ := stepsOf_init_drop h hk
    have hissued : ((Action.sendCmd c params).apply s).log.map Transfer.bytes = initFrames.take (k + 1) := by
      rw [hframe, ← hlog]
      exact List.map_append
    rw [hsteps]
    cases hans : ((Action.sendCmd c params).apply s).takeAnswer with
    | none =>
      rw [runSteps_hang rfl hans]
      exact .inr (.inr ⟨h, k, rfl, hk, hissued⟩)
    | some t =>
      obtain ⟨as, rfl⟩ := takeAnswer_eq_some hans
      rw [runSteps_transfer rfl hans]
      exact ih hissued

/-- A log that begins with the init sequence does so after any step. -/
theorem initSequenceFirst_of_step {s t : State} (hs : initFrames <+: s.log.map Transfer.bytes) (h : step s = .next t) :
    t.InitSequenceFirst :=
  .inr (.inl (hs.trans ((step_frame h).2.map Transfer.bytes)))

/-- A command at a block that has sent nothing and has no bus: INIT runs from its first frame, any other command faults. -/
theorem exec_initSequenceFirst {i : Instr} {s t : State} (hs : s.seq.isBusy = false) (hbus : s.bus = none) (hlog : s.log = [])
    (h : exec i s = .next t) : t.InitSequenceFirst := by
  rcases exec_cases i s with ⟨-, he⟩ | ⟨-, -, -, he⟩ | ⟨hidle, hinit | hbound, -⟩
  · cases he.symm.trans h
    exact .inl ⟨hs, hbus, hlog⟩
  · cases he.symm.trans h
    exact .inl ⟨rfl, hbus, hlog⟩
  · obtain ⟨b, rfl⟩ := isInit_eq_true hinit
    cases (exec_init_runs b hidle).symm.trans h
    exact runSteps_init_initSequenceFirst b (Nat.zero_le 16) (congrArg (List.map Transfer.bytes) hlog)
  · rw [hbus] at hbound
    cases hbound

/-- A step of a block that has sent nothing and has no bus: it waits, rejects the word, or executes a command. -/
theorem step_initSequenceFirst_of_unbound {s t : State} (hs : s.seq.isBusy = false) (hbus : s.bus = none) (hlog : s.log = [])
    (h : step s = .next t) : t.InitSequenceFirst := by
  rcases step_cases s with ⟨-, he⟩ | ⟨cmd, p, hseq, -⟩ | ⟨-, -, he⟩ | ⟨w, rest, e, -, -, -, he⟩ | ⟨w, rest, i, -, -, -, he⟩
  · cases he.symm.trans h
    exact .inl ⟨hs, hbus, hlog⟩
  · rw [hseq] at hs
    cases hs
  · cases he.symm.trans h
    exact .inl ⟨hs, hbus, hlog⟩
  · cases he.symm.trans h
    exact .inl ⟨rfl, hbus, hlog⟩
  · exact exec_initSequenceFirst (s := { s with offered := rest }) hs hbus hlog (he.symm.trans h)

/-- Going on with an INIT that waits for its init frame number `k`: it waits on, or runs from behind that frame. -/
theorem resumeCommand_init_initSequenceFirst {h : BusHandle} {k : Nat} (hk : k < 16) {s : State}
    (hs : s.seq = .busy (.init h) { pos := k + 1, inFlight := true })
    (hlog : s.log.map Transfer.bytes = initFrames.take (k + 1)) :
    (resumeCommand (.init h) { pos := k + 1, inFlight := true } s).InitSequenceFirst := by
  rcases resumeCommand_cases (.init h) (p := { pos := k + 1, inFlight := true }) rfl s with hwait | ⟨as, hgo⟩
  · rw [hwait]
    exact .inr (.inr ⟨h, k, hs, hk, hlog⟩)
  · rw [hgo]
    exact runSteps_init_initSequenceFirst h hk hlog

/-- Settles O57, by the three cases of the invariant: a block that has sent nothing runs no command but INIT, a log that begins with
the init sequence only grows, and a waiting INIT goes on with the init frame it stopped at. -/
theorem initSequenceFirstKeptByStep : Obligations.InitSequenceFirstKeptByStep := by
  rintro s t (⟨hs, hbus, hlog⟩ | hsent | ⟨h, k, hs, hk, hlog⟩) hst
  · exact step_initSequenceFirst_of_unbound hs hbus hlog hst
  · exact initSequenceFirst_of_step hsent hst
  · cases (step_busy hs).symm.trans hst
    exact resumeCommand_init_initSequenceFirst hk hs hlog

/-- Settles O6: the third of the five cases of a step. -/
theorem idleBlockWithNoWordWaits : Obligations.IdleBlockWithNoWordWaits := fun _ => step_idle_empty

/-- A reset offers no word that was not offered before it. -/
theorem offeredAfterReset_nil {s : State} (hs : s.offered = []) : s.offeredAfterReset = [] := by
  rw [State.offeredAfterReset, hs, ite_self]

/-- Settles O52: a host reset differs from the reset state in the host's two inputs only, and it is idle. -/
theorem resetValues : Obligations.ResetValues := by
  refine ⟨?_, fun s hs => step_idle_empty (State.hostReset_seq s) (offeredAfterReset_nil hs)⟩
  rintro s (rfl | ⟨s', rfl⟩)
  · exact ⟨Memory.read_nil, rfl, rfl, rfl, rfl, rfl⟩
  · exact ⟨Memory.read_nil, rfl, rfl, rfl, rfl, rfl⟩

end Sys2Proof.Machine
end

section
/-! SUPPORT. The cost table: the transfers, bytes and data frames of the init sequence and of a full update, and of each command by
adding up those it sends (70_reset_and_hazards.md R189; 30_encoding.md R91; 45_page_serializer.md R143). -/

namespace Sys2Proof.Machine

/-- The transfers are `transfers` many, carry `bytes` bytes, and `dataFrames` of them are data frames. -/
def HasCost (trs : List Transfer) (transfers bytes dataFrames : Nat) : Prop :=
  trs.length = transfers ∧ (trs.map fun tr => tr.bytes.length).sum = bytes ∧
    (trs.filter fun tr => isDataFrame tr.bytes).length = dataFrames

theorem hasCost_nil : HasCost [] 0 0 0 := ⟨rfl, rfl, rfl⟩

theorem HasCost.append {l₁ l₂ : List Transfer} {n₁ n₂ b₁ b₂ d₁ d₂ : Nat} (h₁ : HasCost l₁ n₁ b₁ d₁) (h₂ : HasCost l₂ n₂ b₂ d₂) :
    HasCost (l₁ ++ l₂) (n₁ + n₂) (b₁ + b₂) (d₁ + d₂) := by
  obtain ⟨hn₁, hb₁, hd₁⟩ := h₁
  obtain ⟨hn₂, hb₂, hd₂⟩ := h₂
  exact ⟨by rw [List.length_append, hn₁, hn₂], by rw [List.map_append, List.sum_append, hb₁, hb₂],
    by rw [List.filter_append, List.length_append, hd₁, hd₂]⟩

/-! ### The init sequence and a full update -/

theorem sum_length_initFrames : (initFrames.map List.length).sum = 41 := by decide

/-- The init sequence has no data frame among its sixteen (30_encoding.md R91). -/
theorem hasCost_initTransfers (bus : Option BusHandle) : HasCost (initTransfers bus) 16 41 0 := by
  have hdata : (initFrames.filter isDataFrame).length = 0 := by decide
  refine ⟨initTransfers_length bus, ?_, ?_⟩
  · rw [initTransfers, List.map_map]
    exact sum_length_initFrames
  · rw [initTransfers, List.filter_map, List.length_map]
    exact hdata

/-- The last of a page's four frames is its data frame, of 129 bytes; the others have two bytes (45_page_serializer.md R144). -/
theorem updateFrame_kind (m : Memory) (t : Nat) : isDataFrame (updateFrame m t) = decide (t % 4 = 3) ∧
    (updateFrame m t).length = if t % 4 = 3 then 129 else 2 := by
  have ht : t % 4 = 0 ∨ t % 4 = 1 ∨ t % 4 = 2 ∨ t % 4 = 3 := by omega
  rcases ht with h | h | h | h
  · simp [updateFrame, h, isDataFrame]
  · simp [updateFrame, h, isDataFrame]
  · simp [updateFrame, h, isDataFrame]
  · simp [updateFrame, h, isDataFrame]

theorem isDataFrame_updateFrame (m : Memory) (t : Nat) : isDataFrame (updateFrame m t) = decide (t % 4 = 3) :=
  (updateFrame_kind m t).1

theorem length_updateFrame (m : Memory) (t : Nat) : (updateFrame m t).length = if t % 4 = 3 then 129 else 2 :=
  (updateFrame_kind m t).2

/-- A full update's transfers of one kind are counted by their indices. -/
theorem length_filter_fullUpdate (bus : Option BusHandle) (m : Memory) {kind : List Byte → Bool} {index : Nat → Bool}
    (hkind : ∀ t, kind (updateFrame m t) = index t) :
    ((fullUpdate bus m).filter fun tr => kind tr.bytes).length = (List.range 32).countP index := by
  rw [← List.countP_eq_length_filter, fullUpdate, List.countP_map]
  exact congrArg (List.countP · (List.range 32)) (funext hkind)

theorem sum_bytes_fullUpdate (bus : Option BusHandle) (m : Memory) :
    ((fullUpdate bus m).map fun tr => tr.bytes.length).sum = 1080 := by
  have hlengths : ((fullUpdate bus m).map fun tr => tr.bytes.length) =
      (List.range 32).map fun t => if t % 4 = 3 then 129 else 2 := by
    rw [fullUpdate, List.map_map]
    exact List.map_congr_left fun t _ => length_updateFrame m t
  rw [hlengths]
  decide

theorem hasCost_fullUpdate (bus : Option BusHandle) (m : Memory) : HasCost (fullUpdate bus m) 32 1080 8 :=
  ⟨fullUpdate_length bus m, sum_bytes_fullUpdate bus m, (length_filter_fullUpdate bus m (isDataFrame_updateFrame m)).trans (by decide)⟩

/-- A full update is 24 command frames of two bytes and 8 data frames of 129 (45_page_serializer.md R143). -/
theorem fullUpdate_frames (bus : Option BusHandle) (m : Memory) :
    ((fullUpdate bus m).filter fun tr => !isDataFrame tr.bytes && tr.bytes.length == 2).length = 24 ∧
    ((fullUpdate bus m).filter fun tr => isDataFrame tr.bytes && tr.bytes.length == 129).length = 8 := by
  have hcommand (t : Nat) : (!isDataFrame (updateFrame m t) && (updateFrame m t).length == 2) = decide (t % 4 ≠ 3) := by
    rw [isDataFrame_updateFrame, length_updateFrame]
    by_cases ht : t % 4 = 3 <;> simp [ht]
  have hdata (t : Nat) : (isDataFrame (updateFrame m t) && (updateFrame m t).length == 129) = decide (t % 4 = 3) := by
    rw [isDataFrame_updateFrame, length_updateFrame]
    by_cases ht : t % 4 = 3 <;> simp [ht]
  exact ⟨(length_filter_fullUpdate bus m (kind := fun bytes => !isDataFrame bytes && bytes.length == 2) hcommand).trans (by decide),
    (length_filter_fullUpdate bus m (kind := fun bytes => isDataFrame bytes && bytes.length == 129) hdata).trans (by decide)⟩

/-! ### The commands -/

/-- The pseudocode of each command appends transfers of the table's cost. -/
theorem applyAll_stepsOf_cost (i : Instr) (s : State) : ∃ new, (applyAll (stepsOf i) s).log = s.log ++ new ∧
    HasCost new (transfersOf i) (busBytesOf i) (8 * fullUpdatesOf i) := by
  have hupdate := hasCost_fullUpdate s.bus
  cases i with
  | init h =>
    exact ⟨_, by rw [stepsOf, applyAll_initSteps, List.append_assoc],
      (hasCost_initTransfers (some h)).append (hasCost_fullUpdate (some h) Memory.zero)⟩
  | clear => exact ⟨_, congrArg State.log (applyAll_clearProc s), hupdate _⟩
  | drawPixel x y color => exact ⟨[], (List.append_nil s.log).symm, hasCost_nil⟩
  | drawSquare x y width height => exact ⟨_, congrArg State.log (applyAll_drawSquareSteps x y width height s), hupdate _⟩
  | drawBorder solid =>
    exact ⟨[], by rw [stepsOf, applyAll_drawBorderSteps, List.append_nil], hasCost_nil⟩
  | setBorder solid =>
    exact ⟨_, by rw [stepsOf, applyAll_setBorderSteps, List.append_assoc], (hupdate _).append (hupdate _)⟩
  | drawString x y n => exact ⟨_, congrArg State.log (applyAll_drawStringBody x y n s), hupdate _⟩
  | displayMessage n =>
    exact ⟨_, by rw [stepsOf, applyAll_displayMessageSteps, List.append_assoc, List.append_assoc],
      (hupdate _).append ((hupdate _).append (hupdate _))⟩
  | update => exact ⟨_, congrArg State.log (applyAll_updateProc s), hupdate _⟩

/-- Settles O17: a command with every transfer answered logs what its pseudocode sends, and that has the table's cost. -/
theorem transferCostTable : Obligations.TransferCostTable := by
  refine ⟨fun i s hs hinit hans => ?_, by decide, by decide, sum_length_initFrames,
    fun bus m => ⟨(fullUpdate_frames bus m).1, (fullUpdate_frames bus m).2, sum_bytes_fullUpdate bus m⟩⟩
  have hrun : isInit i = true ∨ s.bus.isSome = true := hinit.symm.imp_left fun ⟨h, hi⟩ => by rw [hi]; rfl
  have hdone := exec_done hs hrun (by rwa [transferCount_stepsOf])
  obtain ⟨new, hlog, htransfers, hbytes, hdata⟩ := applyAll_stepsOf_cost i s
  exact ⟨_, new, hdone, hlog, htransfers, hbytes, hdata⟩

end Sys2Proof.Machine
end
